-- ==== Sys2Proof/Word.lean ====
section
/-! DEFINITION. The plain values of the block: bytes, colours, attributes and pixels (00_scope.md R11;
41_attribute_palette.md R130). -/

namespace Sys2Proof

/-- A bitmap byte, an attribute byte, a border colour byte or one RGBA channel (R11). -/
abbrev Byte := BitVec 8

/-- A display-file address (R11). -/
abbrev Addr := BitVec 16

/-- The enumeration of 8 colours, in the order of their codes 0 to 7 (R85, R130). -/
inductive Color where
  | black | blue | red | purple | green | cyan | yellow | white
  deriving DecidableEq, Repr

/-- A cell's attribute (R130). -/
structure Attribute where
  ink : Color
  paper : Color
  bright : Bool
  flash : Bool
  deriving DecidableEq, Repr

/-- One pixel of the buffer: four bytes in the order red, green, blue, alpha (R86). -/
structure Rgba where
  r : Byte
  g : Byte
  b : Byte
  a : Byte
  deriving DecidableEq, Repr

end Sys2Proof
end

