-- ==== Sys2Proof/Syntax.lean ====
section
/-! DEFINITION. The operations of the block, one constructor per row of the select-code table (30_encoding.md R80,
R81), and the transaction in which the caller presents one. -/

namespace Sys2Proof

/-- The 13 externally selectable operations with their operands, in the order of the select codes `0x0` to `0xC`
(R80). An operand has the width of its port (R81; 92_eei_decisions.md D2); `clock` is a natural number (R11). -/
inductive Instr where
  | bitmapLineAddress (line : BitVec 8)
  | bitmapRowFromAddress (address : Addr)
  | bitmapColumnFromAddress (address : Addr)
  | attrRowFromAddress (address : Addr)
  | attrColumnFromAddress (address : Addr)
  | colorFromBits (bits : BitVec 8)
  | attributeFromByte (byte : Byte)
  | paletteRgba (attr : Byte) (pixelState flashPhase : Bool)
  | setBorder (colorByte : Byte) (clock : Nat)
  | newFrame
  | writeBitmapByte (address : Addr) (clock : Nat) (data : Byte)
  | writeAttrByte (address : Addr) (clock : Nat) (value : Byte)
  | cloneTexture
  deriving DecidableEq, Repr

/-- What the caller presents: the 4-bit select code and, beside it, one port per operand name (R80, R81).
A port the selected operation does not read may hold anything. -/
structure Transaction where
  op : BitVec 4
  line : BitVec 8 := 0
  address : Addr := 0
  bits : BitVec 8 := 0
  byte : Byte := 0
  attr : Byte := 0
  pixelState : Bool := false
  flashPhase : Bool := false
  colorByte : Byte := 0
  clock : Nat := 0
  data : Byte := 0
  value : Byte := 0
  deriving DecidableEq, Repr

end Sys2Proof
end

