-- ==== Sys2Proof/WellFormed.lean ====
section
/-! DEFINITION. The operand values each operation's rule documents (30_encoding.md R90). Port widths are in the
types of `Instr`, so what is left to check is the documented domain. The machine does NOT need the check: outside
it an operation has the meaning its own rule gives (a formula, a contract violation or a refusal). -/

namespace Sys2Proof

/-- `0x4000..0x57FF` (20_memory.md R51). -/
def Addr.inBitmapDomain (address : Addr) : Bool :=
  decide (0x4000 ≤ address.toNat ∧ address.toNat ≤ 0x57FF)

/-- `0x5800..0x5AFF` (20_memory.md R51). -/
def Addr.inAttrDomain (address : Addr) : Bool :=
  decide (0x5800 ≤ address.toNat ∧ address.toNat ≤ 0x5AFF)

/-- Every operand lies in the domain its operation's rule documents (R90; R111 to R115, R131, R175, R176). -/
def Instr.wellFormed : Instr → Bool
  | .bitmapLineAddress line => decide (line.toNat ≤ 191)
  | .bitmapRowFromAddress address => address.inBitmapDomain
  | .bitmapColumnFromAddress address => address.inBitmapDomain
  | .attrRowFromAddress address => address.inAttrDomain
  | .attrColumnFromAddress address => address.inAttrDomain
  | .colorFromBits bits => decide (bits.toNat ≤ 7)
  | .attributeFromByte _ => true
  | .paletteRgba _ _ _ => true
  | .setBorder _ _ => true
  | .newFrame => true
  | .writeBitmapByte address _ _ => address.inBitmapDomain
  | .writeAttrByte address _ _ => address.inAttrDomain
  | .cloneTexture => true

end Sys2Proof
end

