-- ==== Sys2Proof/Decode.lean ====
section
/-! DEFINITION. From a transaction to an operation and back (30_encoding.md R80, R81, R89, R90). The select code is
the only part that is decoded; the operands come from their ports. -/

namespace Sys2Proof

/-- Why the decoder names no operation. -/
inductive DecodeRejection where
  /-- A select code `0xD`, `0xE` or `0xF` (R90). -/
  | reservedSelect (op : BitVec 4)
  deriving DecidableEq, Repr

/-- The decoder: total on every transaction (R89). No operand value changes which operation is selected. -/
def decode (t : Transaction) : Except DecodeRejection Instr :=
  match t.op.toNat with
  | 0x0 => .ok (.bitmapLineAddress t.line)
  | 0x1 => .ok (.bitmapRowFromAddress t.address)
  | 0x2 => .ok (.bitmapColumnFromAddress t.address)
  | 0x3 => .ok (.attrRowFromAddress t.address)
  | 0x4 => .ok (.attrColumnFromAddress t.address)
  | 0x5 => .ok (.colorFromBits t.bits)
  | 0x6 => .ok (.attributeFromByte t.byte)
  | 0x7 => .ok (.paletteRgba t.attr t.pixelState t.flashPhase)
  | 0x8 => .ok (.setBorder t.colorByte t.clock)
  | 0x9 => .ok .newFrame
  | 0xA => .ok (.writeBitmapByte t.address t.clock t.data)
  | 0xB => .ok (.writeAttrByte t.address t.clock t.value)
  | 0xC => .ok .cloneTexture
  | _ => .error (.reservedSelect t.op)

/-- The select code of an operation (the table of R80). -/
def Instr.selectCode : Instr → BitVec 4
  | .bitmapLineAddress _ => 0x0
  | .bitmapRowFromAddress _ => 0x1
  | .bitmapColumnFromAddress _ => 0x2
  | .attrRowFromAddress _ => 0x3
  | .attrColumnFromAddress _ => 0x4
  | .colorFromBits _ => 0x5
  | .attributeFromByte _ => 0x6
  | .paletteRgba _ _ _ => 0x7
  | .setBorder _ _ => 0x8
  | .newFrame => 0x9
  | .writeBitmapByte _ _ _ => 0xA
  | .writeAttrByte _ _ _ => 0xB
  | .cloneTexture => 0xC

/-- The encoder: the select code, the operands on their ports, every other port at zero (R80, R81). -/
def encode (i : Instr) : Transaction :=
  let op := i.selectCode
  match i with
  | .bitmapLineAddress line => { op, line }
  | .bitmapRowFromAddress address => { op, address }
  | .bitmapColumnFromAddress address => { op, address }
  | .attrRowFromAddress address => { op, address }
  | .attrColumnFromAddress address => { op, address }
  | .colorFromBits bits => { op, bits }
  | .attributeFromByte byte => { op, byte }
  | .paletteRgba attr pixelState flashPhase => { op, attr, pixelState, flashPhase }
  | .setBorder colorByte clock => { op, colorByte, clock }
  | .newFrame => { op }
  | .writeBitmapByte address clock data => { op, address, clock, data }
  | .writeAttrByte address clock value => { op, address, clock, value }
  | .cloneTexture => { op }

/-- The transaction a row of the opcode table stands for: the table's bits 3..0 are the select code (its mask is
`0xF`), it gives the operands no bits, so every operand port is zero. -/
def tableTransaction (nbits w : Nat) : Transaction := { op := BitVec.ofNat 4 (w % 2 ^ nbits) }

/-- What the decoder reads from an instruction whose bits are `w`, numbered as the opcode table numbers them. -/
def decodeTableWord (nbits w : Nat) : Option Instr :=
  match decode (tableTransaction nbits w) with
  | .ok i => some i
  | .error _ => none

end Sys2Proof
end

