-- ==== Sys2Proof/Config.lean ====
section
/-! DEFINITION. The OPEN parameters a construction binds (00_scope.md R9; 10_state.md R34). They have no body:
nothing in Lean can evaluate them, so a claim about `State.reset` holds for every admitted value. -/

namespace Sys2Proof.Config

/-- `CFP`, the clocks of the first pixel: any natural number (R9; 92_eei_decisions.md D12). -/
opaque cfp : Nat

/-- `CL` less one, so that `cl` is any natural number of at least 1 (R9; 92_eei_decisions.md D12). -/
opaque clPred : Nat

/-- `CL`, the clocks of a scanline; `CL >= 1` (R9). -/
def cl : Nat := clPred + 1

/-- The four bytes of `RESET_PIXEL` (R34; 92_eei_decisions.md D5). -/
opaque resetRed : Byte
/-- See `resetRed`. -/
opaque resetGreen : Byte
/-- See `resetRed`. -/
opaque resetBlue : Byte
/-- See `resetRed`. -/
opaque resetAlpha : Byte

/-- `RESET_PIXEL`, the pixel every position of the buffer holds after construction (R34). -/
def resetPixel : Rgba := ⟨resetRed, resetGreen, resetBlue, resetAlpha⟩

end Sys2Proof.Config
end

