-- ==== Sys2Proof/Machine/State.lean ====
section
/-! DEFINITION. The state of the block as plain data (10_state.md R20 to R30, R34), the reasons a step can stop, and
the state after construction, which is the block's reset (70_reset_and_hazards.md R230). -/

namespace Sys2Proof.Machine

/-- A grid of bytes: cells (index, byte), the indexes strictly rising, no cell holding the byte `0x00` that an
unlisted index reads as (see `Memory.wf` in Machine/Ops.lean). -/
abbrev Memory := List Host.Cell

/-- The pixel buffer (R24). `background` is the pixel construction gave every position (`RESET_PIXEL`, R34);
`painted` lists, by rising pixel index, the pixels that differ from it. -/
structure PixelBuffer where
  background : Rgba
  painted : List (Nat × Rgba)
  deriving DecidableEq, Repr

/-- What the fault latch records: the cause and the offending operand (60_exceptions.md R201). -/
inductive Violation where
  /-- Cause 1, `AddressRange(bitmap, address)`, raised by `writeBitmapByte`. -/
  | bitmapAddress (address : Addr)
  /-- Cause 2, `AddressRange(attr, address)`, raised by `writeAttrByte`. -/
  | attrAddress (address : Addr)
  /-- Cause 3, `ColorCode(bits)`, raised by `colorFromBits`. -/
  | colorCode (bits : BitVec 8)
  deriving DecidableEq, Repr

/-- What stands on the result port: the result of the operation performed last, or `none` if that operation
returns nothing (30_encoding.md R81). The model's own field: the spec gives an operation's result no state. -/
inductive Result where
  | none
  | address (a : Addr)
  | bitmapRow (row : BitVec 8)
  | attrRow (row : Nat)
  | column (column : BitVec 5)
  | color (c : Color)
  | attrib (a : Attribute)
  | rgba (p : Rgba)
  | buffer (bytes : List Byte)
  deriving DecidableEq, Repr

/-- Why the machine stops with a fault. -/
inductive Fault where
  /-- Raised by `step` and by every renderer operation in a state whose fault latch is set: a halted block performs
  no operation and has no successor (60_exceptions.md R204). Safe: the run ends, no state is promised. -/
  | halted (v : Violation)
  deriving DecidableEq, Repr

/-- Why the model gives an operation no meaning. -/
inductive Refusal where
  /-- Raised by `exec` for an instruction that has no meaning yet. Safe. -/
  | notModelled (mnemonic : String)
  /-- Raised by `step` on a reserved select code `0xD..0xF` (60_exceptions.md R214). Safe. -/
  | reservedSelect (op : BitVec 4)
  /-- Raised by `attrRowFromAddress` and `attrColumnFromAddress` for an address below `0x5800`, a call the spec gives
  no meaning (40_address_codec.md R114, R115; 60_exceptions.md R214). Safe. -/
  | belowAttrBase (address : Addr)
  deriving DecidableEq, Repr

/-- The state of the block (R20), the two timing constants bound at construction (R28), and two fields of the
model's own: the operations the caller has yet to issue and the result port. -/
structure State where
  /-- The bitmap grid, `BM[line][col]` at index `32*line + col` (R22). -/
  BM : Memory
  /-- The attribute grid, `AT[row][col]` at index `32*row + col`, held as attribute bytes (R23). -/
  AT : Memory
  /-- The pixel buffer (R24). -/
  PB : PixelBuffer
  /-- The flash phase (R25). -/
  FLASH : Bool
  /-- The frame counter (R26). -/
  FC : Nat
  /-- The fault latch (R27). -/
  FAULT : Option Violation
  /-- The clocks of the first pixel, constant (R9, R28). -/
  CFP : Nat
  /-- The clocks of a scanline, constant (R9, R28). -/
  CL : Nat
  /-- The transactions the caller has yet to present, the next one first (R3, R21): the model's own field. -/
  pending : List Transaction
  /-- The result port: the model's own field. -/
  result : Result
  deriving DecidableEq, Repr

namespace State

/-- `construct(CFP, CL)` with `RESET_PIXEL` given: the table of R34. -/
def construct (cfp cl : Nat) (resetPixel : Rgba) : State where
  BM := []
  AT := []
  PB := { background := resetPixel, painted := [] }
  FLASH := false
  FC := 0
  FAULT := none
  CFP := cfp
  CL := cl
  pending := []
  result := .none

/-- The block right after construction, with the OPEN parameters of Config (R34, R230). -/
def reset : State := construct Config.cfp Config.cl Config.resetPixel

end State

end Sys2Proof.Machine
end

