-- ==== Sys2Proof/Machine/Geometry.lean ====
section
/-! DEFINITION. The fixed geometry and the other named constants (00_scope.md R8, R12), and the coordinates of the
pixel buffer (R16). -/

namespace Sys2Proof.Machine

/-- `CANVAS_W` (R8). -/
@[simp] def canvasW : Nat := 256
/-- `CANVAS_H` (R8). -/
@[simp] def canvasH : Nat := 192
/-- `FRAME_W` (R8). -/
@[simp] def frameW : Nat := 320
/-- `FRAME_H` (R8). -/
@[simp] def frameH : Nat := 240
/-- `BORDER_X` (R8). -/
@[simp] def borderX : Nat := 32
/-- `BORDER_Y` (R8). -/
@[simp] def borderY : Nat := 24
/-- `BLOCK_COLS` (R8). -/
@[simp] def blockCols : Nat := 32
/-- `ATTR_ROWS` (R8). -/
@[simp] def attrRows : Nat := 24
/-- `PIXELS` (R8). -/
@[simp] def pixelCount : Nat := 76800
/-- `BEAM_LEAD` (R12). -/
@[simp] def beamLead : Nat := 2
/-- `PAIR_CLOCKS` (R12). -/
@[simp] def pairClocks : Nat := 8
/-- `FLASH_PERIOD` (R12). -/
@[simp] def flashPeriod : Nat := 32
/-- `BORDER_PATCH_SIDE` (R12; 90_conflicts.md C2). -/
@[simp] def borderPatchSide : Nat := 16

/-- The buffer index of frame pixel `(x, y)` (R16). -/
def pixelIndex (x y : Nat) : Nat := y * frameW + x

/-- Pixel `i` lies in the canvas interior (10_state.md R31). -/
def isCanvas (i : Nat) : Bool :=
  decide (borderX ≤ i % frameW ∧ i % frameW < borderX + canvasW ∧
    borderY ≤ i / frameW ∧ i / frameW < borderY + canvasH)

/-- Pixel `i` lies in the patch `setBorder` paints (43_renderer_ops.md R173). -/
def inBorderPatch (i : Nat) : Bool :=
  decide (i % frameW < borderPatchSide ∧ i / frameW < borderPatchSide)

end Sys2Proof.Machine
end

