-- ==== Sys2Proof/Machine/Beam.lean ====
section
/-! DEFINITION. Beam timing (sub-block beam_timing_comparator; 42_beam_timing.md R150 to R155). Every quantity is a
natural number; the arguments `cfp` and `cl` are the constants `CFP` and `CL`. -/

namespace Sys2Proof.Machine

/-- The block time of line 0 in a column (R151). -/
def columnOrigin (cfp col : Nat) : Nat := cfp + beamLead + col / 2 * pairClocks

/-- The cycle at which the beam is taken to scan a block (R151). -/
def blockTime (cfp cl line col : Nat) : Nat := columnOrigin cfp col + line * cl

/-- The first line of a column the beam has not reached at `clock`, not clamped (R152). -/
def beamLine (cfp cl clock col : Nat) : Nat :=
  if clock < columnOrigin cfp col then 0 else (clock - columnOrigin cfp col) / cl + 1

/-- The threshold of `writeAttrByte`: beam before, inside or past the cell (R153). -/
def attrBlockTime (cfp cl clock row col : Nat) : Nat :=
  let b := beamLine cfp cl clock col
  if b ≤ row * 8 then blockTime cfp cl (row * 8) col
  else if b < (row + 1) * 8 then blockTime cfp cl b col
  else blockTime cfp cl ((row + 1) * 8 - 1) col

/-- The bitmap gate (R154). -/
def bitmapCaught (cfp cl clock line col : Nat) : Bool := decide (clock < blockTime cfp cl line col)

/-- The attribute gate (R155). -/
def attrCaught (cfp cl clock row col : Nat) : Bool := decide (clock < attrBlockTime cfp cl clock row col)

/-- The lines of a cell that a caught attribute write redraws: from `row*8 + (b mod 8)` to `(row+1)*8 - 1` (R155). -/
def attrRedrawLines (cfp cl clock row col : Nat) : List Nat :=
  let first := row * 8 + beamLine cfp cl clock col % 8
  List.range' first ((row + 1) * 8 - first)

end Sys2Proof.Machine
end

