-- ==== Sys2Proof/Machine/Operands.lean ====
section
/-! DEFINITION. Operand assembly (30_encoding.md R82 to R88): the fields of a bitmap address, of an attribute
address, of an attribute byte and of a bitmap byte. The functions of the address codec (40_address_codec.md) and
`attributeFromByte` (41_attribute_palette.md) are here; the meanings of the operations that call them are in the
family files. -/

namespace Sys2Proof.Machine

/-- `0x010 line[7:6] line[2:0] line[5:3] 00000`, the address of column 0 of a line (R82, R111). -/
def bitmapLineAddress (line : BitVec 8) : Addr :=
  0b010#3 ++ line.extractLsb' 6 2 ++ line.extractLsb' 0 3 ++ line.extractLsb' 3 3 ++ 0#5

/-- The line of a bitmap address, `{a[12:11], a[7:5], a[10:8]}` (R88, R112). -/
def bitmapRowFromAddress (address : Addr) : BitVec 8 :=
  address.extractLsb' 11 2 ++ address.extractLsb' 5 3 ++ address.extractLsb' 8 3

/-- The column of a bitmap address, `a[4:0]` (R113). -/
def bitmapColumnFromAddress (address : Addr) : BitVec 5 := address.extractLsb' 0 5

/-- The full bitmap encode, `bitmapLineAddress(line) | col` (R119). -/
def bitmapAddress (line : BitVec 8) (col : BitVec 5) : Addr :=
  bitmapLineAddress line ||| col.setWidth 16

/-- `ATTR_BASE` (00_scope.md R12). -/
def attrBase : Addr := 0x5800

/-- `address - 0x5800`, for an address of `0x5800` or above (R83, R114). -/
def attrOffset (address : Addr) : Nat := (address - attrBase).toNat

/-- `(address - 0x5800) / 32`, for an address of `0x5800` or above (R114). -/
def attrRowFromAddress (address : Addr) : Nat := attrOffset address / 32

/-- `(address - 0x5800) % 32`, for an address of `0x5800` or above (R115). -/
def attrColumnFromAddress (address : Addr) : BitVec 5 := BitVec.ofNat 5 (attrOffset address % 32)

/-- The attribute encode, `0x5800 + 32*row + col` (R116). -/
def attrAddress (row col : Nat) : Addr := BitVec.ofNat 16 (attrBase.toNat + 32 * row + col)

/-- The range check of `writeBitmapByte` (20_memory.md R51; 60_exceptions.md R201). -/
def inBitmapRegion (address : Addr) : Bool :=
  decide (0x4000 ≤ address.toNat ∧ address.toNat ≤ 0x57FF)

/-- The range check of `writeAttrByte` (20_memory.md R51; 60_exceptions.md R201). -/
def inAttrRegion (address : Addr) : Bool :=
  decide (0x5800 ≤ address.toNat ∧ address.toNat ≤ 0x5AFF)

/-- The colour with a 3-bit code (R85). -/
def colorOfCode (code : BitVec 3) : Color :=
  match code.toNat with
  | 0 => .black
  | 1 => .blue
  | 2 => .red
  | 3 => .purple
  | 4 => .green
  | 5 => .cyan
  | 6 => .yellow
  | _ => .white

/-- The code of a colour (R85). -/
def colorCode : Color → BitVec 3
  | .black => 0
  | .blue => 1
  | .red => 2
  | .purple => 3
  | .green => 4
  | .cyan => 5
  | .yellow => 6
  | .white => 7

/-- The colour constructor: no colour for a code above 7 (R131). -/
def colorFromBits (bits : BitVec 8) : Option Color :=
  if 7 < bits.toNat then none else some (colorOfCode (bits.extractLsb' 0 3))

/-- The fields of an attribute byte (R84, R132). -/
def attributeFromByte (byte : Byte) : Attribute where
  ink := colorOfCode (byte.extractLsb' 0 3)
  paper := colorOfCode (byte.extractLsb' 3 3)
  bright := byte.getLsbD 6
  flash := byte.getLsbD 7

/-- The eight pixel states of a bitmap byte, leftmost pixel (most significant bit) first (20_memory.md R55). -/
def pixelStates (byte : Byte) : List Bool :=
  [byte.getLsbD 7, byte.getLsbD 6, byte.getLsbD 5, byte.getLsbD 4,
   byte.getLsbD 3, byte.getLsbD 2, byte.getLsbD 1, byte.getLsbD 0]

/-- The cause code of a violation (60_exceptions.md R201). -/
def Violation.causeCode : Violation → Nat
  | .bitmapAddress _ => 1
  | .attrAddress _ => 2
  | .colorCode _ => 3

/-- The value a violation records, the offending operand (60_exceptions.md R201). -/
def Violation.recorded : Violation → Nat
  | .bitmapAddress address => address.toNat
  | .attrAddress address => address.toNat
  | .colorCode bits => bits.toNat

end Sys2Proof.Machine
end

