-- ==== Sys2Proof/Machine/Flags.lean ====
section
/-! DEFINITION. The flash phase, the block's only status flag (10_state.md R25): when a frame toggles it
(43_renderer_ops.md R174) and what it does to a pixel (41_attribute_palette.md R134). -/

namespace Sys2Proof.Machine

/-- The frame counter value `fc`, already incremented, is one at which the flash phase toggles (R174). -/
def flashToggles (fc : Nat) : Bool := fc % flashPeriod == 0

/-- The flash phase after the frame counter has become `fc` (R174). -/
def nextFlash (fc : Nat) (flash : Bool) : Bool := if flashToggles fc then !flash else flash

/-- `pixelState XOR (attribute.flash AND flashPhase)`: ink is selected, not paper (R134). -/
def inkSelected (attr : Attribute) (pixelState flashPhase : Bool) : Bool :=
  pixelState ^^ (attr.flash && flashPhase)

end Sys2Proof.Machine
end

