-- ==== Sys2Proof/Machine/Lookup.lean ====
section
/-! DEFINITION. The palette look-up (sub-block attribute_palette_lut; 41_attribute_palette.md R133, R134). -/

namespace Sys2Proof.Machine

/-- The colour drives the red channel (R133). -/
def drivesRed : Color → Bool
  | .red => true
  | .purple => true
  | .yellow => true
  | .white => true
  | .black => false
  | .blue => false
  | .green => false
  | .cyan => false

/-- The colour drives the green channel (R133). -/
def drivesGreen : Color → Bool
  | .green => true
  | .cyan => true
  | .yellow => true
  | .white => true
  | .black => false
  | .blue => false
  | .red => false
  | .purple => false

/-- The colour drives the blue channel (R133). -/
def drivesBlue : Color → Bool
  | .blue => true
  | .purple => true
  | .cyan => true
  | .white => true
  | .black => false
  | .red => false
  | .green => false
  | .yellow => false

/-- The level of a driven channel: `FULL` when bright, else `DIM` (R12, R133). -/
def intensity (bright : Bool) : Byte := if bright then 0xFF else 0x88

/-- `colorRgba(color, bright)` (R133). -/
def colorRgba (color : Color) (bright : Bool) : Rgba where
  r := if drivesRed color then intensity bright else 0
  g := if drivesGreen color then intensity bright else 0
  b := if drivesBlue color then intensity bright else 0
  a := 0xFF

/-- `paletteRgba(attribute, pixelState, flashPhase)` (R134). -/
def paletteRgba (attr : Attribute) (pixelState flashPhase : Bool) : Rgba :=
  colorRgba (if inkSelected attr pixelState flashPhase then attr.ink else attr.paper)
    attr.bright

end Sys2Proof.Machine
end

