-- ==== Sys2Proof/Machine/Ops.lean ====
section
/-! DEFINITION. The named operations over the grids, the pixel buffer, the fault latch and the result port. -/

namespace Sys2Proof.Machine

/-! ### Sparse cells in one canonical form -/

/-- The value at an index: that of the first cell listed for it, else `unlisted`. -/
def readCells {α : Type} (unlisted : α) : List (Nat × α) → Nat → α
  | [], _ => unlisted
  | (k, v) :: cells, i => if k = i then v else readCells unlisted cells i

/-- The cells that give consecutive indexes from `start` the values `vs`, none of them listing `unlisted`. -/
def runCells {α : Type} [DecidableEq α] (unlisted : α) (start : Nat) : List α → List (Nat × α)
  | [] => []
  | v :: vs =>
    if v = unlisted then runCells unlisted (start + 1) vs
    else (start, v) :: runCells unlisted (start + 1) vs

/-- Writes the values `vs` to consecutive indexes from `start`; every other index keeps its value. -/
def writeRun {α : Type} [DecidableEq α] (unlisted : α) (start : Nat) (vs : List α)
    (cells : List (Nat × α)) : List (Nat × α) :=
  cells.filter (fun c => decide (c.1 < start)) ++ runCells unlisted start vs ++
    cells.filter (fun c => decide (start + vs.length ≤ c.1))

/-- The canonical form: indexes strictly rising and below `size`, no cell equal to what an unlisted index reads as. -/
abbrev Canonical {α : Type} (unlisted : α) (size : Nat) (cells : List (Nat × α)) : Prop :=
  cells.Pairwise (fun c d => c.1 < d.1) ∧ ∀ c ∈ cells, c.1 < size ∧ c.2 ≠ unlisted

/-! ### The grids -/

/-- The byte of an unlisted grid entry: the reset contents (10_state.md R34). -/
def unlistedByte : Byte := 0x00

/-- The canonical form of a grid of `size` entries. -/
abbrev Memory.wf (m : Memory) (size : Nat) : Prop := Canonical unlistedByte size m

/-- The byte at an index of a grid. -/
def Memory.read (m : Memory) (i : Nat) : Byte := readCells unlistedByte m i

/-- The grid with the byte at an index replaced. -/
def Memory.write (m : Memory) (i : Nat) (b : Byte) : Memory := writeRun unlistedByte i [b] m

/-- The index of an entry of either grid, row-major with 32 columns (10_state.md R22, R23). -/
def gridIndex (row col : Nat) : Nat := row * blockCols + col

/-- `BM[line][col]` (R22). -/
def State.bitmapAt (s : State) (line col : Nat) : Byte := s.BM.read (gridIndex line col)

/-- `AT[row][col]` as its byte (R23). -/
def State.attrAt (s : State) (row col : Nat) : Byte := s.AT.read (gridIndex row col)

/-- `BM[line][col] <- b`. -/
def State.storeBitmap (s : State) (line col : Nat) (b : Byte) : State :=
  { s with BM := s.BM.write (gridIndex line col) b }

/-- `AT[row][col] <- b`. -/
def State.storeAttr (s : State) (row col : Nat) (b : Byte) : State :=
  { s with AT := s.AT.write (gridIndex row col) b }

/-! ### The pixel buffer -/

/-- The canonical form of the pixel buffer. -/
abbrev PixelBuffer.wf (pb : PixelBuffer) : Prop := Canonical pb.background pixelCount pb.painted

/-- `PB[i]` (R24). -/
def PixelBuffer.read (pb : PixelBuffer) (i : Nat) : Rgba := readCells pb.background pb.painted i

/-- Consecutive pixels from index `start` replaced. -/
def PixelBuffer.writeRun (pb : PixelBuffer) (start : Nat) (pixels : List Rgba) : PixelBuffer :=
  { pb with painted := Machine.writeRun pb.background start pixels pb.painted }

/-- `PB[i]` of a state. -/
def State.pixel (s : State) (i : Nat) : Rgba := s.PB.read i

/-- The four bytes of a pixel in buffer order (20_memory.md R54). -/
def rgbaBytes (p : Rgba) : List Byte := [p.r, p.g, p.b, p.a]

/-- The buffer as its 307200 bytes (43_renderer_ops.md R178). -/
def PixelBuffer.bytes (pb : PixelBuffer) : List Byte :=
  (List.range' 0 pixelCount).flatMap fun i => rgbaBytes (pb.read i)

/-! ### Drawing -/

/-- The eight pixels of a block, computed from the grids and the flash phase, leftmost first
(43_renderer_ops.md R171). -/
def blockPixels (s : State) (line col : Nat) : List Rgba :=
  let attr := attributeFromByte (s.attrAt (line / 8) col)
  (pixelStates (s.bitmapAt line col)).map fun pixelState => paletteRgba attr pixelState s.FLASH

/-- The buffer index of the leftmost pixel of a block (R171). -/
def blockStart (line col : Nat) : Nat := pixelIndex (borderX + 8 * col) (borderY + line)

/-- The buffer `pb` with the block of `s` at `(line, col)` drawn into it. -/
def drawBlock (s : State) (pb : PixelBuffer) (line col : Nat) : PixelBuffer :=
  pb.writeRun (blockStart line col) (blockPixels s line col)

/-- `updateBlock(line, col)` (R171). -/
def updateBlock (line col : Nat) (s : State) : State := { s with PB := drawBlock s s.PB line col }

/-- `updateBlock` of several lines of one column, in order (R176). -/
def updateLines (lines : List Nat) (col : Nat) (s : State) : State :=
  lines.foldl (fun t line => updateBlock line col t) s

/-- The 256 canvas pixels of a line, its 32 blocks side by side (the inner loop of R172: the blocks of a line stand
next to each other in the buffer). -/
def linePixels (s : State) (line : Nat) : List Rgba :=
  (List.range blockCols).flatMap (blockPixels s line)

/-- The buffer `pb` with the 32 blocks of one line of `s` drawn into it. -/
def drawLine (s : State) (pb : PixelBuffer) (line : Nat) : PixelBuffer :=
  pb.writeRun (blockStart line 0) (linePixels s line)

/-- `fullRedraw()`: every block of the canvas (R172). The order of the pixel writes is not specified (R170); here a
line is written at once. Drawing reads only the grids and the flash phase, which it does not change, so the loop
runs over the buffer alone. -/
def fullRedraw (s : State) : State :=
  { s with PB := (List.range canvasH).foldl (drawLine s) s.PB }

/-- One row of the border patch set to one colour (the inner loop of R173). -/
def paintRow (c : Rgba) (pb : PixelBuffer) (y : Nat) : PixelBuffer :=
  pb.writeRun (pixelIndex 0 y) (List.replicate borderPatchSide c)

/-- Every pixel of the border patch set to one colour (R173). -/
def paintPatch (c : Rgba) (s : State) : State :=
  { s with PB := (List.range borderPatchSide).foldl (paintRow c) s.PB }

/-! ### The result port, the fault latch and the fault gate -/

/-- The state with an operation's result on the result port. -/
def State.respond (s : State) (r : Result) : State := { s with result := r }

/-- Fault entry (60_exceptions.md R203): the operation ends with no result and no state but `FAULT` changes. A latch
that is already set keeps the cause it recorded (R204, R206). -/
def State.raise (v : Violation) (s : State) : State :=
  { s with FAULT := some (s.FAULT.getD v), result := .none }

/-- The fault gate (R204): a halted block performs no renderer operation and has no successor. -/
def gated (s : State) (operation : State → Host.Outcome State Fault Refusal) :
    Host.Outcome State Fault Refusal :=
  match s.FAULT with
  | none => operation s
  | some v => .fault (.halted v)

end Sys2Proof.Machine
end

