-- ==== Sys2Proof/Machine/Codec.lean ====
section
/-! DEFINITION. The operations of the address codec (40_address_codec.md): pure functions, not gated by the fault
latch (R110). -/

namespace Sys2Proof.Machine

/-- R111. -/
def execBitmapLineAddress (line : BitVec 8) (s : State) : Host.Outcome State Fault Refusal :=
  .next (s.respond (.address (bitmapLineAddress line)))

/-- R112. -/
def execBitmapRowFromAddress (address : Addr) (s : State) : Host.Outcome State Fault Refusal :=
  .next (s.respond (.bitmapRow (bitmapRowFromAddress address)))

/-- R113. -/
def execBitmapColumnFromAddress (address : Addr) (s : State) : Host.Outcome State Fault Refusal :=
  .next (s.respond (.column (bitmapColumnFromAddress address)))

/-- R114; a call below `0x5800` has no meaning (60_exceptions.md R214). -/
def execAttrRowFromAddress (address : Addr) (s : State) : Host.Outcome State Fault Refusal :=
  if address < attrBase then .refused (.belowAttrBase address)
  else .next (s.respond (.attrRow (attrRowFromAddress address)))

/-- R115; a call below `0x5800` has no meaning (60_exceptions.md R214). -/
def execAttrColumnFromAddress (address : Addr) (s : State) : Host.Outcome State Fault Refusal :=
  if address < attrBase then .refused (.belowAttrBase address)
  else .next (s.respond (.column (attrColumnFromAddress address)))

end Sys2Proof.Machine
end

