-- ==== Sys2Proof/Machine/Palette.lean ====
section
/-! DEFINITION. The operations of the attribute and palette model (41_attribute_palette.md): pure functions, not
gated by the fault latch (60_exceptions.md R202). -/

namespace Sys2Proof.Machine

/-- R131; a code above 7 is a contract violation (60_exceptions.md R202). -/
def execColorFromBits (bits : BitVec 8) (s : State) : Host.Outcome State Fault Refusal :=
  match colorFromBits bits with
  | some color => .next (s.respond (.color color))
  | none => .next (s.raise (.colorCode bits))

/-- R132. -/
def execAttributeFromByte (byte : Byte) (s : State) : Host.Outcome State Fault Refusal :=
  .next (s.respond (.attrib (attributeFromByte byte)))

/-- R134; the flash phase is the operand, not `FLASH`. -/
def execPaletteRgba (attr : Byte) (pixelState flashPhase : Bool) (s : State) :
    Host.Outcome State Fault Refusal :=
  .next (s.respond (.rgba (paletteRgba (attributeFromByte attr) pixelState flashPhase)))

end Sys2Proof.Machine
end

