-- ==== Sys2Proof/Machine/Renderer.lean ====
section
/-! DEFINITION. The operations of the screen renderer (43_renderer_ops.md), each behind the fault gate
(60_exceptions.md R204). -/

namespace Sys2Proof.Machine

/-- R173; the clock is accepted and not used. -/
def execSetBorder (colorByte : Byte) (_clock : Nat) (s : State) : Host.Outcome State Fault Refusal :=
  gated s fun s =>
    .next ((paintPatch (paletteRgba (attributeFromByte colorByte) true false) s).respond .none)

/-- The frame counter incremented and the flash phase after it, before the redraw (R174). -/
def advanceFrame (s : State) : State :=
  { s with FC := s.FC + 1, FLASH := nextFlash (s.FC + 1) s.FLASH }

/-- R174. -/
def execNewFrame (s : State) : Host.Outcome State Fault Refusal :=
  gated s fun s => .next ((fullRedraw (advanceFrame s)).respond .none)

/-- The accepted case of `writeBitmapByte`: the byte is stored, the block repainted if the beam has not reached it
(R175). -/
def bitmapWritten (address : Addr) (clock : Nat) (data : Byte) (s : State) : State :=
  let line := (bitmapRowFromAddress address).toNat
  let col := (bitmapColumnFromAddress address).toNat
  let stored := s.storeBitmap line col data
  if bitmapCaught s.CFP s.CL clock line col then updateBlock line col stored else stored

/-- R175. -/
def execWriteBitmapByte (address : Addr) (clock : Nat) (data : Byte) (s : State) :
    Host.Outcome State Fault Refusal :=
  gated s fun s =>
    if inBitmapRegion address then .next ((bitmapWritten address clock data s).respond .none)
    else .next (s.raise (.bitmapAddress address))

/-- The accepted case of `writeAttrByte`: the attribute is stored, the part of the cell the beam has not passed
repainted (R176). -/
def attrWritten (address : Addr) (clock : Nat) (value : Byte) (s : State) : State :=
  let row := attrRowFromAddress address
  let col := (attrColumnFromAddress address).toNat
  let stored := s.storeAttr row col value
  if attrCaught s.CFP s.CL clock row col then
    updateLines (attrRedrawLines s.CFP s.CL clock row col) col stored
  else stored

/-- R176. -/
def execWriteAttrByte (address : Addr) (clock : Nat) (value : Byte) (s : State) :
    Host.Outcome State Fault Refusal :=
  gated s fun s =>
    if inAttrRegion address then .next ((attrWritten address clock value s).respond .none)
    else .next (s.raise (.attrAddress address))

/-- R178; the result is the value of the buffer at the call. -/
def execCloneTexture (s : State) : Host.Outcome State Fault Refusal :=
  gated s fun s => .next (s.respond (.buffer s.PB.bytes))

end Sys2Proof.Machine
end

