-- ==== Sys2Proof/Machine/Dispatch.lean ====
section
/-! DEFINITION. The meaning of every operation, by constructor. -/

namespace Sys2Proof.Machine

/-- One operation performed in a state. -/
def exec (i : Instr) (s : State) : Host.Outcome State Fault Refusal :=
  match i with
  | .bitmapLineAddress line => Sys2Proof.Machine.execBitmapLineAddress line s
  | .bitmapRowFromAddress address => Sys2Proof.Machine.execBitmapRowFromAddress address s
  | .bitmapColumnFromAddress address => Sys2Proof.Machine.execBitmapColumnFromAddress address s
  | .attrRowFromAddress address => Sys2Proof.Machine.execAttrRowFromAddress address s
  | .attrColumnFromAddress address => Sys2Proof.Machine.execAttrColumnFromAddress address s
  | .colorFromBits bits => Sys2Proof.Machine.execColorFromBits bits s
  | .attributeFromByte byte => Sys2Proof.Machine.execAttributeFromByte byte s
  | .paletteRgba attr pixelState flashPhase => Sys2Proof.Machine.execPaletteRgba attr pixelState flashPhase s
  | .setBorder colorByte clock => Sys2Proof.Machine.execSetBorder colorByte clock s
  | .newFrame => Sys2Proof.Machine.execNewFrame s
  | .writeBitmapByte address clock data => Sys2Proof.Machine.execWriteBitmapByte address clock data s
  | .writeAttrByte address clock value => Sys2Proof.Machine.execWriteAttrByte address clock value s
  | .cloneTexture => Sys2Proof.Machine.execCloneTexture s

end Sys2Proof.Machine
end

