-- ==== Sys2Proof/Machine/Step.lean ====
section
/-! DEFINITION. One step: the next transaction the caller presents is decoded and performed (00_scope.md R3;
10_state.md R21). -/

namespace Sys2Proof.Machine

/-- Nothing is presented: the block is idle and holds all its state (60_exceptions.md R213); a halted block has no
successor (R204). -/
def idle (s : State) : Host.Outcome State Fault Refusal := gated s .next

/-- One step of the block. -/
def step (s : State) : Host.Outcome State Fault Refusal :=
  match s.pending with
  | [] => idle s
  | t :: rest =>
    match decode t with
    | .ok i => exec i { s with pending := rest }
    | .error (.reservedSelect op) => .refused (.reservedSelect op)

/-- The state with the transaction of an opcode-table word presented next. -/
def State.withFetchWord (s : State) (nbits w : Nat) : State :=
  { s with pending := tableTransaction nbits w :: s.pending }

end Sys2Proof.Machine
end

