-- ==== Sys2Proof/Safety.lean ====
section
/-! DEFINITION. What claims are stated in: the invariants of the state, when a block of the picture is consistent
with the grids, runs of operations, and when a run is safe. -/

namespace Sys2Proof.Machine

/-- The form of the state: canonical grids and buffer of the sizes the spec gives (10_state.md R22 to R24), and a
scanline of at least one clock (00_scope.md R9). -/
structure State.Inv (s : State) : Prop where
  bitmap : s.BM.wf (canvasH * blockCols)
  attrs : s.AT.wf (attrRows * blockCols)
  buffer : s.PB.wf
  lineClocks : 1 ≤ s.CL

/-- A value the palette can give (41_attribute_palette.md R133). -/
def IsPalettePixel (p : Rgba) : Prop := ∃ color bright, p = colorRgba color bright

/-- What every reachable picture satisfies (10_state.md R31, R36). -/
structure State.PictureInv (s : State) : Prop where
  painted : ∀ i, i < pixelCount → isCanvas i ∨ inBorderPatch i →
    s.pixel i = s.PB.background ∨ IsPalettePixel (s.pixel i)
  border : ∀ i, i < pixelCount → ¬ isCanvas i → ¬ inBorderPatch i → s.pixel i = s.PB.background
  patch : ∀ i j, i < pixelCount → j < pixelCount → inBorderPatch i → inBorderPatch j → s.pixel i = s.pixel j
  flash : s.FLASH = decide (s.FC / flashPeriod % 2 = 1)

/-- The pixel that lane `k` of block `(line, col)` has by the grids and the flash phase (43_renderer_ops.md R171):
bit `7 - k` of the bitmap byte under the cell's attribute. -/
def State.shownPixel (s : State) (line col k : Nat) : Rgba :=
  paletteRgba (attributeFromByte (s.attrAt (line / 8) col)) ((s.bitmapAt line col).getLsbD (7 - k)) s.FLASH

/-- Canvas block `(line, col)` shows what the grids and the flash phase say (10_state.md R33). -/
def State.Consistent (s : State) (line col : Nat) : Prop :=
  ∀ k, k < 8 → s.pixel (pixelIndex (borderX + 8 * col + k) (borderY + line)) = s.shownPixel line col k

/-- The contract violation an operation commits, if any (60_exceptions.md R200 to R202). -/
def violationOf : Instr → Option Violation
  | .bitmapLineAddress _ => none
  | .bitmapRowFromAddress _ => none
  | .bitmapColumnFromAddress _ => none
  | .attrRowFromAddress _ => none
  | .attrColumnFromAddress _ => none
  | .colorFromBits bits => if 7 < bits.toNat then some (.colorCode bits) else none
  | .attributeFromByte _ => none
  | .paletteRgba _ _ _ => none
  | .setBorder _ _ => none
  | .newFrame => none
  | .writeBitmapByte address _ _ =>
    if address.toNat < 0x4000 ∨ 0x57FF < address.toNat then some (.bitmapAddress address) else none
  | .writeAttrByte address _ _ =>
    if address.toNat < 0x5800 ∨ 0x5AFF < address.toNat then some (.attrAddress address) else none
  | .cloneTexture => none

/-- A run: the operations performed one after the other until one stops (70_reset_and_hazards.md R238). -/
def perform : List Instr → State → Host.Outcome State Fault Refusal
  | [], s => .next s
  | i :: is, s =>
    match exec i s with
    | .next t => perform is t
    | .fault r => .fault r
    | .refused r => .refused r

/-- How many operations of a run change the flash phase (43_renderer_ops.md R174). -/
def flashChanges : List Instr → State → Nat
  | [], _ => 0
  | i :: is, s =>
    match exec i s with
    | .next t => (if t.FLASH = s.FLASH then 0 else 1) + flashChanges is t
    | .fault _ => 0
    | .refused _ => 0

/-- A run is safe: every operation is performed and no fault is latched at its end (60_exceptions.md R204). -/
def SafeRun (is : List Instr) (s : State) : Prop := ∃ t, perform is s = .next t ∧ t.FAULT = none

end Sys2Proof.Machine
end

