-- ==== Sys2Proof/Certificates/Slice0/Obligations.lean ====
section
/-! DEFINITION. The statements for the provers: what each operation does, what it leaves unchanged, what every
operation keeps. Spec files and rules are cited by name; `notes/assumptions/<n>.md` is cited where a clause rests on a
choice. -/

open Sys2Proof Sys2Proof.Machine

/-- The eight colours in the order of their codes (30_encoding.md R85). -/
def colorsByCode : List Color := [.black, .blue, .red, .purple, .green, .cyan, .yellow, .white]

/-- The RGBA value of a colour code by the code's bits: blue follows bit 0, red bit 1, green bit 2
(41_attribute_palette.md R133). -/
def rgbaByCode (code : Nat) (bright : Bool) : Rgba :=
  let level : Byte := if bright then 0xFF else 0x88
  { r := if code / 2 % 2 = 1 then level else 0, g := if code / 4 % 2 = 1 then level else 0,
    b := if code % 2 = 1 then level else 0, a := 0xFF }

/-- Pixel `i` is one of the eight pixels of block `(line, col)` (43_renderer_ops.md R171; 00_scope.md R16). -/
def InBlock (i line col : Nat) : Prop := i / 320 = 24 + line ∧ 32 + 8 * col ≤ i % 320 ∧ i % 320 < 40 + 8 * col

/-- The constants of the block's life and the operations still to come are untouched (10_state.md R28). -/
def SameConstants (s t : State) : Prop :=
  t.CFP = s.CFP ∧ t.CL = s.CL ∧ t.PB.background = s.PB.background ∧ t.pending = s.pending

/-! ### Decoding and the step -/

/-- R80, R90: each select code, its bits written out, decodes to its operation with the operands of its ports; the
three reserved codes are rejected. -/
def Obligations.SelectCodesDecodeToTheirOperations : Prop :=
  decode { op := 0b0000#4, line := 0b01100100#8 } = .ok (.bitmapLineAddress 100) ∧
  decode { op := 0b0001#4, address := 0x4ABC } = .ok (.bitmapRowFromAddress 0x4ABC) ∧
  decode { op := 0b0010#4, address := 0x401F } = .ok (.bitmapColumnFromAddress 0x401F) ∧
  decode { op := 0b0011#4, address := 0x5A37 } = .ok (.attrRowFromAddress 0x5A37) ∧
  decode { op := 0b0100#4, address := 0x5820 } = .ok (.attrColumnFromAddress 0x5820) ∧
  decode { op := 0b0101#4, bits := 5 } = .ok (.colorFromBits 5) ∧
  decode { op := 0b0110#4, byte := 0x47 } = .ok (.attributeFromByte 0x47) ∧
  decode { op := 0b0111#4, attr := 0xC2, pixelState := true, flashPhase := false } =
    .ok (.paletteRgba 0xC2 true false) ∧
  decode { op := 0b1000#4, colorByte := 0x07, clock := 123 } = .ok (.setBorder 0x07 123) ∧
  decode { op := 0b1001#4 } = .ok .newFrame ∧
  decode { op := 0b1010#4, address := 0x4102, clock := 14569, data := 0xF0 } =
    .ok (.writeBitmapByte 0x4102 14569 0xF0) ∧
  decode { op := 0b1011#4, address := 0x5824, clock := 16599, value := 0x42 } =
    .ok (.writeAttrByte 0x5824 16599 0x42) ∧
  decode { op := 0b1100#4 } = .ok .cloneTexture ∧
  decode { op := 0b1101#4 } = .error (.reservedSelect 0xD) ∧
  decode { op := 0b1110#4 } = .error (.reservedSelect 0xE) ∧
  decode { op := 0b1111#4 } = .error (.reservedSelect 0xF)

/-- R80, R81, R89: decoding an encoded operation gives it back with every operand; and whatever a transaction decodes
to carries that transaction's select code. -/
def Obligations.DecodeOfEncodeIsTheOperation : Prop :=
  (∀ i, decode (encode i) = .ok i) ∧ (∀ t i, decode t = .ok i → (encode i).op = t.op)

/-- R3, R21, R213: a step performs the operation the next transaction decodes to, in the state without that
transaction; with no transaction the block is idle and holds all its state (log entries 11, 13; halted, it has no
successor: log entry 4). -/
def Obligations.StepPerformsThePresentedOperation : Prop :=
  (∀ s t rest i, s.pending = t :: rest → decode t = .ok i → step s = exec i { s with pending := rest }) ∧
  (∀ s, s.pending = [] → s.FAULT = none → step s = .next s) ∧
  (∀ s v, s.pending = [] → s.FAULT = some v → step s = .fault (.halted v))

/-- R214: the model refuses a reserved select code, and a direct call of the two subtracting decodes below `0x5800`
(the spec's decisions D1 and D10; log entry 6). -/
def Obligations.CallsWithoutMeaningAreRefused : Prop :=
  (∀ s t rest, s.pending = t :: rest → 0xD ≤ t.op.toNat → step s = .refused (.reservedSelect t.op)) ∧
  (∀ (s : State) (a : Addr), a.toNat < 0x5800 →
    exec (.attrRowFromAddress a) s = .refused (.belowAttrBase a) ∧
    exec (.attrColumnFromAddress a) s = .refused (.belowAttrBase a))

/-! ### The address codec -/

/-- R111: the result is the formula's address and nothing but the result port changes, in every state (R110: not gated).
Outside lines 0 to 191 the formula is the spec's decision D10 (log entry 6). -/
def Obligations.BitmapLineAddressIsTheBitInterleave : Prop :=
  ∀ (line : BitVec 8) (s : State),
    exec (.bitmapLineAddress line) s = .next { s with result := .address (BitVec.ofNat 16
      (0x4000 ||| (line.toNat % 8) <<< 8 ||| (line.toNat / 8 % 8) <<< 5 ||| (line.toNat / 64) <<< 11)) }

/-- R112: the row from the high byte `h` and the low byte `l` by the rule's second formula, and nothing but the result
port changes, in every state. Outside `0x4000..0x57FF` the formula is the spec's decision D10 (log entry 6). -/
def Obligations.BitmapRowReassemblesTheFields : Prop :=
  ∀ (a : Addr) (s : State),
    exec (.bitmapRowFromAddress a) s = .next { s with result := .bitmapRow (BitVec.ofNat 8
      ((a.toNat / 256 &&& 0x07) ||| ((a.toNat % 256) >>> 2 &&& 0x38) ||| ((a.toNat / 256) <<< 3 &&& 0xC0))) }

/-- R113: the column is the low five bits, and nothing but the result port changes, in every state. Outside
`0x4000..0x57FF` the formula is the spec's decision D10 (log entry 6). -/
def Obligations.BitmapColumnIsTheLowFiveBits : Prop :=
  ∀ (a : Addr) (s : State),
    exec (.bitmapColumnFromAddress a) s = .next { s with result := .column (BitVec.ofNat 5 (a.toNat % 32)) }

/-- R114: the row for every address of `0x5800` or above, `n` its distance from there (above `0x5AFF` by the spec's
decision D10, log entry 6), with nothing but the result port changed, in every state; in the documented domain it is
`address[9:5]` and at most 23. -/
def Obligations.AttrRowIsTheOffsetOver32 : Prop :=
  ∀ (a : Addr) (n : Nat) (s : State), a.toNat = 0x5800 + n →
    exec (.attrRowFromAddress a) s = .next { s with result := .attrRow (n / 32) } ∧
    (a.toNat ≤ 0x5AFF → n / 32 = a.toNat / 32 % 32 ∧ n / 32 ≤ 23)

/-- R115: the column for every address of `0x5800` or above, `n` its distance from there (above `0x5AFF` by the spec's
decision D10, log entry 6), with nothing but the result port changed, in every state; it equals `address[4:0]`. -/
def Obligations.AttrColumnIsTheOffsetModulo32 : Prop :=
  ∀ (a : Addr) (n : Nat) (s : State), a.toNat = 0x5800 + n →
    exec (.attrColumnFromAddress a) s = .next { s with result := .column (BitVec.ofNat 5 (n % 32)) } ∧
    n % 32 = a.toNat % 32

/-- R117: both round-trip laws, (a) for all 256 rows and (b) in both directions. -/
def Obligations.CodecRoundTrips : Prop :=
  (∀ row : BitVec 8, bitmapRowFromAddress (bitmapLineAddress row) = row) ∧
  (∀ a : Addr, 0x5800 ≤ a.toNat → a.toNat ≤ 0x5AFF →
    attrRowFromAddress a ≤ 23 ∧ (attrColumnFromAddress a).toNat ≤ 31 ∧
    attrAddress (attrRowFromAddress a) (attrColumnFromAddress a).toNat = a) ∧
  (∀ row col, row ≤ 23 → col ≤ 31 →
    attrRowFromAddress (attrAddress row col) = row ∧ (attrColumnFromAddress (attrAddress row col)).toNat = col)

/-- R118: decoded coordinates are in range. -/
def Obligations.DecodedCoordinatesAreInRange : Prop :=
  (∀ a : Addr, 0x4000 ≤ a.toNat → a.toNat ≤ 0x57FF →
    (bitmapRowFromAddress a).toNat ≤ 191 ∧ (bitmapColumnFromAddress a).toNat ≤ 31) ∧
  (∀ a : Addr, 0x5800 ≤ a.toNat → a.toNat ≤ 0x5AFF →
    attrRowFromAddress a ≤ 23 ∧ (attrColumnFromAddress a).toNat ≤ 31)

/-- R119: the bitmap addresses and the entries of the bitmap grid correspond one to one, each direction inverting the
other. -/
def Obligations.BitmapAddressesAndEntriesCorrespond : Prop :=
  (∀ a : Addr, 0x4000 ≤ a.toNat → a.toNat ≤ 0x57FF →
    bitmapAddress (bitmapRowFromAddress a) (bitmapColumnFromAddress a) = a) ∧
  (∀ (line : BitVec 8) (col : BitVec 5), line.toNat ≤ 191 →
    0x4000 ≤ (bitmapAddress line col).toNat ∧ (bitmapAddress line col).toNat ≤ 0x57FF ∧
    bitmapRowFromAddress (bitmapAddress line col) = line ∧ bitmapColumnFromAddress (bitmapAddress line col) = col)

/-- R119's last sentence, seen through the machine: two different valid addresses never alias one entry, so a byte
written stays whatever is written elsewhere. -/
def Obligations.DifferentBitmapAddressesDoNotAlias : Prop :=
  ∀ (a b : Addr) (k k' : Nat) (d e : Byte) (s t u : State), a ≠ b →
    0x4000 ≤ a.toNat → a.toNat ≤ 0x57FF → 0x4000 ≤ b.toNat → b.toNat ≤ 0x57FF →
    exec (.writeBitmapByte a k d) s = .next t → exec (.writeBitmapByte b k' e) t = .next u →
    u.bitmapAt (bitmapRowFromAddress a).toNat (bitmapColumnFromAddress a).toNat = d ∧
    u.bitmapAt (bitmapRowFromAddress b).toNat (bitmapColumnFromAddress b).toNat = e

/-! ### The palette -/

/-- R131, R202: a code of at most 7 gives its colour in every state, halted ones too, and nothing but the result port
changes; a greater one latches `ColorCode` with the operand (R201's record and the latch that keeps its first cause
are the spec's decision D9, log entry 5) and changes nothing else. -/
def Obligations.ColorFromBitsGivesTheColourOrLatches : Prop :=
  (∀ (bits : BitVec 8) (c : Color) (s : State), colorsByCode[bits.toNat]? = some c →
    exec (.colorFromBits bits) s = .next { s with result := .color c }) ∧
  (∀ (bits : BitVec 8) (s : State), 7 < bits.toNat → s.FAULT = none →
    exec (.colorFromBits bits) s = .next { s with FAULT := some (.colorCode bits), result := .none }) ∧
  (∀ (bits : BitVec 8) (s : State) (v : Violation), 7 < bits.toNat → s.FAULT = some v →
    exec (.colorFromBits bits) s = .next { s with result := .none })

/-- R132: the fields of the attribute, with nothing but the result port changed, in every state. Which colours the
codes 1 to 6 name is the spec's from the order of the list and general knowledge (R85, K1; log entry 8). -/
def Obligations.AttributeFromByteSplitsTheByte : Prop :=
  (∀ (b : Byte) (ink paper : Color) (s : State),
    colorsByCode[b.toNat % 8]? = some ink → colorsByCode[b.toNat / 8 % 8]? = some paper →
    exec (.attributeFromByte b) s = .next { s with result := .attrib ⟨ink, paper,
      decide (b.toNat / 64 % 2 = 1), decide (b.toNat / 128 = 1)⟩ })

/-- R23, R132: the map from the 256 bytes to the attributes is a bijection (an inference of the spec; it is why the
attribute grid can hold bytes, 92_eei_decisions.md D19). -/
def Obligations.AttributeBytesAndAttributesCorrespond : Prop := Function.Bijective attributeFromByte

/-- R134: the colour `ink` or `paper` that `pixelState XOR (flash AND flashPhase)` selects, looked up with the one
bright bit; nothing but the result port changes, in every state, whatever `FLASH` is. -/
def Obligations.PaletteRgbaLooksUpTheSelectedColour : Prop :=
  ∀ (b : Byte) (pixelState flashPhase : Bool) (s : State) (attr : Attribute), attributeFromByte b = attr →
    (pixelState ≠ (attr.flash && flashPhase) → exec (.paletteRgba b pixelState flashPhase) s =
      .next { s with result := .rgba (colorRgba attr.ink attr.bright) }) ∧
    (pixelState = (attr.flash && flashPhase) → exec (.paletteRgba b pixelState flashPhase) s =
      .next { s with result := .rgba (colorRgba attr.paper attr.bright) })

/-- R133 through `paletteRgba`: the channels of the selected colour at the attribute's level, with nothing but the result port changed, in every state.
The channels of the six middle colours are the spec's from general knowledge (93_implementation_defined.md K2; log
entry 8). -/
def Obligations.PaletteRgbaGivesTheChannels : Prop :=
  ∀ (b : Byte) (pixelState flashPhase : Bool) (s : State),
    exec (.paletteRgba b pixelState flashPhase) s = .next { s with result := .rgba (rgbaByCode
      (if pixelState ≠ (decide (b.toNat / 128 = 1) && flashPhase) then b.toNat % 8 else b.toNat / 8 % 8)
      (decide (b.toNat / 64 % 2 = 1))) }

/-- R135: (a) black is black, (b) exchanging ink and paper undoes the pixel state, (c) the image has exactly 15
elements, those of R133's table, all opaque (the table's channels are the spec's from general knowledge; log entry
8). -/
def Obligations.PaletteLaws : Prop :=
  (∀ (at' : Attribute) (p f : Bool), at'.ink = .black → at'.paper = .black → paletteRgba at' p f = ⟨0, 0, 0, 255⟩) ∧
  (∀ (at' : Attribute) (p f : Bool), (if inkSelected at' p f then at'.ink else at'.paper) = .black →
    paletteRgba at' p f = ⟨0, 0, 0, 255⟩) ∧
  (∀ (at' : Attribute) (f : Bool),
    paletteRgba at' true f = paletteRgba { at' with ink := at'.paper, paper := at'.ink } false f) ∧
  (∃ image : List Rgba, image.Nodup ∧ image.length = 15 ∧ (∀ p ∈ image, p.a = 0xFF) ∧
    (∀ p, p ∈ image ↔ ∃ at' px f, paletteRgba at' px f = p) ∧
    ∀ p, p ∈ image ↔ ∃ code bright, code < 8 ∧ rgbaByCode code bright = p)

/-! ### Beam timing -/

/-- R151: the formulas, the column pairs, the extremes and the order of the block times. -/
def Obligations.BlockTimesFollowTheFormula : Prop :=
  ∀ cfp cl : Nat, 1 ≤ cl →
    (∀ line col, blockTime cfp cl line col = cfp + 2 + line * cl + (col / 2) * 8) ∧
    (∀ col, columnOrigin cfp col = blockTime cfp cl 0 col) ∧
    (∀ line k, blockTime cfp cl line (2 * k) = blockTime cfp cl line (2 * k + 1)) ∧
    (∀ line line' col, line < line' → blockTime cfp cl line col < blockTime cfp cl line' col) ∧
    (∀ line col col', col ≤ col' → blockTime cfp cl line col ≤ blockTime cfp cl line col') ∧
    (∀ line col, line ≤ 191 → col ≤ 31 →
      cfp + 2 ≤ blockTime cfp cl line col ∧ blockTime cfp cl line col ≤ cfp + 2 + 191 * cl + 120) ∧
    blockTime cfp cl 0 0 = cfp + 2 ∧ blockTime cfp cl 191 31 = cfp + 2 + 191 * cl + 120 ∧
    (cl < 120 → ∀ line, blockTime cfp cl (line + 1) 0 < blockTime cfp cl line 31)

/-- R152, R154: the two cases of `beamLine`, its characterisation by the block times (an inference of the spec), its
values at the corners, and the bitmap gate in its terms: a line is caught exactly when it is at or after the beam's. -/
def Obligations.BeamLineIsTheFirstLineAhead : Prop :=
  ∀ cfp cl clock col : Nat, 1 ≤ cl →
    (clock < columnOrigin cfp col → beamLine cfp cl clock col = 0) ∧
    (columnOrigin cfp col ≤ clock → beamLine cfp cl clock col = (clock - columnOrigin cfp col) / cl + 1) ∧
    clock < blockTime cfp cl (beamLine cfp cl clock col) col ∧
    (1 ≤ beamLine cfp cl clock col → blockTime cfp cl (beamLine cfp cl clock col - 1) col ≤ clock) ∧
    (∀ line, clock < blockTime cfp cl line col → beamLine cfp cl clock col ≤ line) ∧
    beamLine cfp cl (columnOrigin cfp col - 1) col = 0 ∧
    beamLine cfp cl (columnOrigin cfp col) col = 1 ∧
    beamLine cfp cl (columnOrigin cfp col + cl - 1) col = 1 ∧
    beamLine cfp cl (columnOrigin cfp col + cl) col = 2 ∧
    (∀ line, bitmapCaught cfp cl clock line col = true ↔ beamLine cfp cl clock col ≤ line)

/-- R154: a bitmap write is caught exactly before the block time, equality is too late; caught, it recomputes the
block's pixels from the grids and the flash phase it leaves and touches no other; otherwise it leaves the buffer
untouched. -/
def Obligations.BitmapGateIsTheStrictComparison : Prop :=
  (∀ cfp cl clock line col : Nat,
    (bitmapCaught cfp cl clock line col = true ↔ clock < cfp + 2 + line * cl + (col / 2) * 8) ∧
    bitmapCaught cfp cl (blockTime cfp cl line col) line col = false) ∧
  (∀ (a : Addr) (clock : Nat) (d : Byte) (s : State), s.FAULT = none → 0x4000 ≤ a.toNat → a.toNat ≤ 0x57FF →
    ∃ t, exec (.writeBitmapByte a clock d) s = .next t ∧
      ∀ line col, line = (bitmapRowFromAddress a).toNat → col = (bitmapColumnFromAddress a).toNat →
        (bitmapCaught s.CFP s.CL clock line col = true →
          t.Consistent line col ∧ ∀ i, ¬ InBlock i line col → t.pixel i = s.pixel i) ∧
        (bitmapCaught s.CFP s.CL clock line col = false → t.PB = s.PB))

/-- R153, R155, R156: the three thresholds (the spec's decision D8, log entry 7), the outcome of the attribute gate,
and the lines a caught write redraws. -/
def Obligations.AttributeGateOpensUntilTheBeamHasPassed : Prop :=
  ∀ cfp cl clock row col : Nat, 1 ≤ cl →
    (beamLine cfp cl clock col ≤ row * 8 →
      attrBlockTime cfp cl clock row col = blockTime cfp cl (row * 8) col) ∧
    (row * 8 < beamLine cfp cl clock col → beamLine cfp cl clock col < (row + 1) * 8 →
      attrBlockTime cfp cl clock row col = blockTime cfp cl (beamLine cfp cl clock col) col) ∧
    ((row + 1) * 8 ≤ beamLine cfp cl clock col →
      attrBlockTime cfp cl clock row col = blockTime cfp cl ((row + 1) * 8 - 1) col) ∧
    (attrCaught cfp cl clock row col = true ↔ beamLine cfp cl clock col < (row + 1) * 8) ∧
    (∀ line, line ∈ attrRedrawLines cfp cl clock row col ↔
      row * 8 + beamLine cfp cl clock col % 8 ≤ line ∧ line ≤ (row + 1) * 8 - 1) ∧
    (row * 8 < beamLine cfp cl clock col → beamLine cfp cl clock col < (row + 1) * 8 →
      row * 8 + beamLine cfp cl clock col % 8 = beamLine cfp cl clock col)

/-- R235: a write before `CFP + 2` is caught, and an attribute write then redraws its whole cell; a write at or after
the last block time is not caught. -/
def Obligations.EarlyWritesAreCaughtAndLateOnesAreNot : Prop :=
  ∀ cfp cl clock : Nat, 1 ≤ cl →
    (clock < cfp + 2 → ∀ line row col,
      bitmapCaught cfp cl clock line col = true ∧ attrCaught cfp cl clock row col = true ∧
      attrRedrawLines cfp cl clock row col = List.range' (row * 8) 8) ∧
    (blockTime cfp cl 191 31 ≤ clock → ∀ line row col, line ≤ 191 → row ≤ 23 → col ≤ 31 →
      bitmapCaught cfp cl clock line col = false ∧ attrCaught cfp cl clock row col = false)

/-! ### Drawing -/

/-- R171: `updateBlock` writes the eight pixels of the block from the byte, the attribute and the flash phase, most
significant bit leftmost, and changes nothing else; it is idempotent. -/
def Obligations.UpdateBlockWritesItsEightPixels : Prop :=
  ∀ (line col : Nat) (s : State), line < 192 → col < 32 →
    (∀ k, k < 8 → (updateBlock line col s).pixel ((24 + line) * 320 + (32 + 8 * col + k)) =
      paletteRgba (attributeFromByte (s.attrAt (line / 8) col)) ((s.bitmapAt line col).getLsbD (7 - k)) s.FLASH) ∧
    (∀ i, ¬ InBlock i line col → (updateBlock line col s).pixel i = s.pixel i) ∧
    (updateBlock line col s).PB.background = s.PB.background ∧
    updateBlock line col s = { s with PB := (updateBlock line col s).PB } ∧
    updateBlock line col (updateBlock line col s) = updateBlock line col s

/-- R172: `fullRedraw` is the double loop of `updateBlock`; it writes every canvas pixel from the grids and the flash
phase, no border pixel, and changes nothing else; after it every block is consistent. -/
def Obligations.FullRedrawIsTheLoopOfBlockUpdates : Prop :=
  ∀ s : State,
    fullRedraw s = (List.range 192).foldl (fun t line =>
      (List.range 32).foldl (fun t col => updateBlock line col t) t) s ∧
    (∀ line col, line < 192 → col < 32 → (fullRedraw s).Consistent line col) ∧
    (∀ i, isCanvas i = false → (fullRedraw s).pixel i = s.pixel i) ∧
    fullRedraw s = { s with PB := (fullRedraw s).PB }

/-! ### The renderer operations -/

/-- R173: in a block without a fault `setBorder` completes; the 256 pixels of the patch take the ink colour at the
byte's level, every other pixel and all other state stay. The shape of the patch is the spec's decision D7 (log entry
9), that the clock does not enter D18 (log entry 19); the channels of the six middle colours are the spec's from general
knowledge (K2; log entry 8). -/
def Obligations.SetBorderPaintsThePatch : Prop :=
  ∀ (c : Byte) (clock : Nat) (s : State), s.FAULT = none →
    ∃ t, exec (.setBorder c clock) s = .next t ∧
      (∀ i, t.pixel i = if i % 320 < 16 ∧ i / 320 < 16 then
        rgbaByCode (c.toNat % 8) (decide (c.toNat / 64 % 2 = 1)) else s.pixel i) ∧
      t.BM = s.BM ∧ t.AT = s.AT ∧ t.FLASH = s.FLASH ∧ t.FC = s.FC ∧ t.FAULT = none ∧ t.result = .none ∧
      SameConstants s t

/-- R174: in a block without a fault `newFrame` completes; the counter is incremented, the flash phase toggles when
the new counter is a multiple of 32 (which residue is the spec's decision D6, log entry 10), every canvas pixel is
redrawn with that phase, no border pixel changes, all other state stays. -/
def Obligations.NewFrameAdvancesAndRedraws : Prop :=
  ∀ s : State, s.FAULT = none →
    ∃ t, exec .newFrame s = .next t ∧ t.FC = s.FC + 1 ∧
      t.FLASH = (if (s.FC + 1) % 32 = 0 then !s.FLASH else s.FLASH) ∧
      (∀ line col, line < 192 → col < 32 → t.Consistent line col) ∧
      (∀ i, isCanvas i = false → t.pixel i = s.pixel i) ∧
      t.BM = s.BM ∧ t.AT = s.AT ∧ t.FAULT = none ∧ t.result = .none ∧ SameConstants s t

/-- R175: `writeBitmapByte`. Not performed in a halted block; outside the region it latches the fault and stores
nothing; inside it completes: the byte is stored in its entry and no other, the block's eight pixels are repainted
exactly when the clock is before the block time, and nothing else changes. -/
def Obligations.WriteBitmapByteStoresAndRacesTheBeam : Prop :=
  ∀ (a : Addr) (clock : Nat) (d : Byte) (s : State),
    (∀ v, s.FAULT = some v → exec (.writeBitmapByte a clock d) s = .fault (.halted v)) ∧
    (s.FAULT = none → a.toNat < 0x4000 ∨ 0x57FF < a.toNat →
      exec (.writeBitmapByte a clock d) s = .next { s with FAULT := some (.bitmapAddress a), result := .none }) ∧
    (s.FAULT = none → 0x4000 ≤ a.toNat → a.toNat ≤ 0x57FF →
      ∃ t, exec (.writeBitmapByte a clock d) s = .next t ∧
        (∀ line col, line = (bitmapRowFromAddress a).toNat → col = (bitmapColumnFromAddress a).toNat →
          t.bitmapAt line col = d ∧ (∀ j, j ≠ gridIndex line col → t.BM.read j = s.BM.read j) ∧
          (∀ i, InBlock i line col → clock < s.CFP + 2 + line * s.CL + (col / 2) * 8 →
            t.pixel i = paletteRgba (attributeFromByte (s.attrAt (line / 8) col))
              (d.getLsbD (7 - (i % 320 - 32) % 8)) s.FLASH) ∧
          (∀ i, ¬ InBlock i line col ∨ s.CFP + 2 + line * s.CL + (col / 2) * 8 ≤ clock → t.pixel i = s.pixel i)) ∧
        t.AT = s.AT ∧ t.FLASH = s.FLASH ∧ t.FC = s.FC ∧ t.FAULT = none ∧ t.result = .none ∧ SameConstants s t)

/-- R176: `writeAttrByte`. Not performed in a halted block; outside the region it latches the fault and stores
nothing; inside it completes: the attribute is stored in its entry and no other; while the beam has not passed the
cell, with `b` the beam's line, lines `row*8 + (b mod 8)` to `row*8 + 7` of the cell are repainted with the new
attribute; nothing else changes. The gate is R156's form of the three thresholds (the spec's decision D8, log entry
7). -/
def Obligations.WriteAttrByteStoresAndRedrawsTheRest : Prop :=
  ∀ (a : Addr) (clock : Nat) (v : Byte) (s : State), 1 ≤ s.CL →
    (∀ w, s.FAULT = some w → exec (.writeAttrByte a clock v) s = .fault (.halted w)) ∧
    (s.FAULT = none → a.toNat < 0x5800 ∨ 0x5AFF < a.toNat →
      exec (.writeAttrByte a clock v) s = .next { s with FAULT := some (.attrAddress a), result := .none }) ∧
    (∀ n, s.FAULT = none → a.toNat = 0x5800 + n → a.toNat ≤ 0x5AFF →
      ∃ t, exec (.writeAttrByte a clock v) s = .next t ∧
        (∀ row col b, row = n / 32 → col = n % 32 →
          b = (if clock < s.CFP + 2 + (col / 2) * 8 then 0
            else (clock - (s.CFP + 2 + (col / 2) * 8)) / s.CL + 1) →
          t.attrAt row col = v ∧ (∀ j, j ≠ gridIndex row col → t.AT.read j = s.AT.read j) ∧
          (∀ i line, InBlock i line col → b < (row + 1) * 8 → row * 8 + b % 8 ≤ line → line < (row + 1) * 8 →
            t.pixel i = paletteRgba (attributeFromByte v)
              ((s.bitmapAt line col).getLsbD (7 - (i % 320 - 32) % 8)) s.FLASH) ∧
          (∀ i, (∀ line, InBlock i line col → b < (row + 1) * 8 → row * 8 + b % 8 ≤ line →
            (row + 1) * 8 ≤ line) → t.pixel i = s.pixel i)) ∧
        t.BM = s.BM ∧ t.FLASH = s.FLASH ∧ t.FC = s.FC ∧ t.FAULT = none ∧ t.result = .none ∧ SameConstants s t)

/-- R32, R54: in a block without a fault `cloneTexture` completes and its result is always 320 × 240 × 4 bytes, those
of pixel `i` at offsets `4i` to `4i + 3` in the order red, green, blue, alpha; the state does not change. The byte order
is the spec's inference (R54); that the result is the buffer's value at the call is its decision D14 (log entry 18). -/
def Obligations.CloneTextureReturnsTheWholeBuffer : Prop :=
  ∀ s : State, s.FAULT = none →
    ∃ bytes, exec .cloneTexture s = .next { s with result := .buffer bytes } ∧ bytes.length = 320 * 240 * 4 ∧
      ∀ i, i < 320 * 240 → bytes[4 * i]? = some (s.pixel i).r ∧ bytes[4 * i + 1]? = some (s.pixel i).g ∧
        bytes[4 * i + 2]? = some (s.pixel i).b ∧ bytes[4 * i + 3]? = some (s.pixel i).a

/-- R91: the operand parts that have no effect: the clock, the paper and the flash bit of `setBorder`; the flash bit
of `paletteRgba` when the phase is false, the phase when the flash bit is clear, the bright bit when black is
selected. -/
def Obligations.IgnoredOperandPartsHaveNoEffect : Prop :=
  (∀ (c c' : Byte) (k k' : Nat) (s : State), c.toNat % 8 = c'.toNat % 8 →
    c.toNat / 64 % 2 = c'.toNat / 64 % 2 → exec (.setBorder c k) s = exec (.setBorder c' k') s) ∧
  (∀ (b b' : Byte) (p : Bool) (s : State), b.toNat % 128 = b'.toNat % 128 →
    exec (.paletteRgba b p false) s = exec (.paletteRgba b' p false) s) ∧
  (∀ (b : Byte) (p f f' : Bool) (s : State), b.toNat < 128 →
    exec (.paletteRgba b p f) s = exec (.paletteRgba b p f') s) ∧
  (∀ (b b' : Byte) (p f : Bool) (s : State), b.toNat % 64 = b'.toNat % 64 → b.toNat / 128 = b'.toNat / 128 →
    (if p ≠ (decide (b.toNat / 128 = 1) && f) then b.toNat % 8 else b.toNat / 8 % 8) = 0 →
    exec (.paletteRgba b p f) s = exec (.paletteRgba b' p f) s)

/-! ### Faults -/

/-- R203: fault entry latches the cause code and the operand (R201) and changes no other state; the operation ends
without a result. -/
def Obligations.FaultEntryLatchesAndChangesNothingElse : Prop :=
  ∀ s : State, s.FAULT = none →
    (∀ (a : Addr) (k : Nat) (d : Byte), a.toNat < 0x4000 ∨ 0x57FF < a.toNat →
      ∃ v, exec (.writeBitmapByte a k d) s = .next { s with FAULT := some v, result := .none } ∧
        v.causeCode = 1 ∧ v.recorded = a.toNat) ∧
    (∀ (a : Addr) (k : Nat) (d : Byte), a.toNat < 0x5800 ∨ 0x5AFF < a.toNat →
      ∃ v, exec (.writeAttrByte a k d) s = .next { s with FAULT := some v, result := .none } ∧
        v.causeCode = 2 ∧ v.recorded = a.toNat) ∧
    (∀ bits : BitVec 8, 7 < bits.toNat →
      ∃ v, exec (.colorFromBits bits) s = .next { s with FAULT := some v, result := .none } ∧
        v.causeCode = 3 ∧ v.recorded = bits.toNat)

/-- R200: in a block without a fault an operation never stops with a fault, and the latch becomes set exactly for an
out-of-range address at a write entry point or a colour code above 7, whatever the clock, the data or the state; the
operation then commits no partial state and gives no result, and no operation recovers from it. That a violation is a
next state with a latch set, and that a set latch keeps its first cause, are the spec's decision D9 (log entry 5) and its
inference (R206). -/
def Obligations.ExactlyTwoKindsOfFault : Prop :=
  (∀ (i : Instr) (s : State), s.FAULT = none →
    (∀ r, exec i s ≠ .fault r) ∧
    (∀ t, exec i s = .next t →
      (t.FAULT ≠ none ↔
        (∃ a k d, i = .writeBitmapByte a k d ∧ (a.toNat < 0x4000 ∨ 0x57FF < a.toNat)) ∨
        (∃ a k d, i = .writeAttrByte a k d ∧ (a.toNat < 0x5800 ∨ 0x5AFF < a.toNat)) ∨
        (∃ bits, i = .colorFromBits bits ∧ 7 < bits.toNat)) ∧
      (t.FAULT ≠ none → t = { s with FAULT := t.FAULT, result := .none }))) ∧
  (∀ (i : Instr) (s t : State) (v : Violation), s.FAULT = some v → exec i s = .next t → t.FAULT = some v)

/-- R204, R206: a halted block performs no renderer operation, whatever its operands, and keeps the recorded cause
(the latch without successors is the spec's decision D9, log entries 4 and 5). -/
def Obligations.HaltedBlockPerformsNoRendererOperation : Prop :=
  ∀ (s : State) (v : Violation), s.FAULT = some v →
    (∀ c k, exec (.setBorder c k) s = .fault (.halted v)) ∧
    exec .newFrame s = .fault (.halted v) ∧
    (∀ a k d, exec (.writeBitmapByte a k d) s = .fault (.halted v)) ∧
    (∀ a k d, exec (.writeAttrByte a k d) s = .fault (.halted v)) ∧
    exec .cloneTexture s = .fault (.halted v)

/-- R204, R206: after a fault the state never changes again: a step that still answers (a pure function, R110) leaves
everything but the transactions to come and the result port as it was (log entry 4). -/
def Obligations.FaultedStateNeverChanges : Prop :=
  ∀ (s t : State) (v : Violation), s.FAULT = some v → step s = .next t →
    t = { s with pending := t.pending, result := t.result }

/-! ### What only some operations may change -/

/-- R22, R23, R25, R26, R27, R28, R30: which operation can change each piece of state. -/
def Obligations.EachPieceOfStateHasItsWriters : Prop :=
  ∀ (i : Instr) (s t : State), exec i s = .next t →
    (t.BM ≠ s.BM → ∃ a k d, i = .writeBitmapByte a k d) ∧
    (t.AT ≠ s.AT → ∃ a k d, i = .writeAttrByte a k d) ∧
    (∀ p, t.pixel p ≠ s.pixel p →
      (isCanvas p = true ∧ (i = .newFrame ∨ (∃ a k d, i = .writeBitmapByte a k d) ∨
        ∃ a k d, i = .writeAttrByte a k d)) ∨
      (inBorderPatch p = true ∧ ∃ c k, i = .setBorder c k)) ∧
    (t.FLASH ≠ s.FLASH → i = .newFrame) ∧ (t.FC ≠ s.FC → i = .newFrame) ∧
    (t.FAULT ≠ s.FAULT → s.FAULT = none ∧ violationOf i ≠ none) ∧ SameConstants s t

/-- R31: the region discipline. A border pixel that changes lies in the patch (the spec's decision D7, log entry 9) and
was written by `setBorder`; a canvas pixel that changes was written by a block update and shows the grids and the flash
phase. Every pixel of a block is a canvas pixel (an inference of the spec, R171). -/
def Obligations.BorderAndCanvasHaveSeparateWriters : Prop :=
  (∀ (i : Instr) (s t : State) (p : Nat), exec i s = .next t → p < 76800 → t.pixel p ≠ s.pixel p →
    ((p % 320 < 32 ∨ 288 ≤ p % 320 ∨ p / 320 < 24 ∨ 216 ≤ p / 320) →
      (∃ c k, i = .setBorder c k) ∧ p % 320 < 16 ∧ p / 320 < 16) ∧
    (32 ≤ p % 320 → p % 320 ≤ 287 → 24 ≤ p / 320 → p / 320 ≤ 215 →
      (i = .newFrame ∨ (∃ a k d, i = .writeBitmapByte a k d) ∨ ∃ a k d, i = .writeAttrByte a k d) ∧
      t.pixel p = t.shownPixel (p / 320 - 24) ((p % 320 - 32) / 8) ((p % 320 - 32) % 8))) ∧
  (∀ p line col, line ≤ 191 → col ≤ 31 → InBlock p line col →
    32 ≤ p % 320 ∧ p % 320 ≤ 287 ∧ 24 ≤ p / 320 ∧ p / 320 ≤ 215)

/-- R33: a consistent block becomes stale only by a write that does not redraw it: a bitmap write to it at or after its
block time, or an attribute write to its cell that is late, or that starts its redraw below the block's line (R156 (c):
the beam may be above the cell). -/
def Obligations.BlocksBecomeStaleOnlyByWritesThatDoNotRedrawThem : Prop :=
  ∀ (i : Instr) (s t : State) (line col : Nat), line < 192 → col < 32 →
    s.Consistent line col → exec i s = .next t → ¬ t.Consistent line col →
    (∃ a k d, i = .writeBitmapByte a k d ∧ (bitmapRowFromAddress a).toNat = line ∧
      (bitmapColumnFromAddress a).toNat = col ∧ blockTime s.CFP s.CL line col ≤ k) ∨
    (∃ a k d, i = .writeAttrByte a k d ∧ attrRowFromAddress a = line / 8 ∧
      (attrColumnFromAddress a).toNat = col ∧
      (attrCaught s.CFP s.CL k (line / 8) col = false ∨ line ∉ attrRedrawLines s.CFP s.CL k (line / 8) col))

/-- R59: with equal operands every operation but `newFrame` is idempotent, and `newFrame` is not. -/
def Obligations.RepeatedOperationsAreIdempotent : Prop :=
  (∀ (i : Instr) (s t : State), s.Inv → i ≠ .newFrame → exec i s = .next t → t.FAULT = none →
    exec i t = .next t) ∧
  (∀ s t : State, exec .newFrame s = .next t → exec .newFrame t ≠ .next t)

/-! ### Runs -/

/-- R231, R238, R200: every operation with documented operands (R90) completes in a block without a fault and latches
none; so a run of any length is safe, and the frame counter counts its frames. -/
def Obligations.DocumentedOperandsRunSafely : Prop :=
  ∀ (is : List Instr) (s : State), s.FAULT = none → (∀ i ∈ is, i.wellFormed = true) →
    ∃ t, perform is s = .next t ∧ t.FAULT = none ∧ t.FC = s.FC + is.count .newFrame

/-- R174 (the property the source fixes): of the operations of any run with 32 calls of `newFrame`, whatever other
operations stand between them and wherever the counter began, exactly one changes the flash phase; in a run with
`32 * n` calls exactly `n` do. -/
def Obligations.FlashTogglesOncePer32Frames : Prop :=
  ∀ (is : List Instr) (s t : State) (n : Nat), perform is s = .next t → is.count .newFrame = 32 * n →
    flashChanges is s = n ∧ t.FLASH = (if n % 2 = 1 then !s.FLASH else s.FLASH)

/-- R235: right after `newFrame` the state does not depend on when a write arrived: caught or late, the picture is the
same. -/
def Obligations.NewFrameForgetsWhenWritesArrived : Prop :=
  ∀ (s : State) (k k' : Nat), s.Inv → s.FAULT = none →
    (∀ (a : Addr) (d : Byte), 0x4000 ≤ a.toNat → a.toNat ≤ 0x57FF →
      ∃ t t' u, exec (.writeBitmapByte a k d) s = .next t ∧ exec (.writeBitmapByte a k' d) s = .next t' ∧
        exec .newFrame t = .next u ∧ exec .newFrame t' = .next u) ∧
    (∀ (a : Addr) (d : Byte), 0x5800 ≤ a.toNat → a.toNat ≤ 0x5AFF →
      ∃ t t' u, exec (.writeAttrByte a k d) s = .next t ∧ exec (.writeAttrByte a k' d) s = .next t' ∧
        exec .newFrame t = .next u ∧ exec .newFrame t' = .next u)

/-! ### Reset and the invariants -/

/-- R34, R230: the block after construction. Every value is the spec's decision D4, D5 or D9, or an OPEN parameter (log
entries 1 to 3). -/
def Obligations.ResetIsTheConstructedBlock : Prop :=
  (∀ line col, State.reset.bitmapAt line col = 0x00) ∧ (∀ row col, State.reset.attrAt row col = 0x00) ∧
  (∀ i, State.reset.pixel i = Config.resetPixel) ∧ State.reset.FLASH = false ∧ State.reset.FC = 0 ∧
  State.reset.FAULT = none ∧ State.reset.CFP = Config.cfp ∧ State.reset.CL = Config.cl ∧ 1 ≤ State.reset.CL

/-- The constructed block has the invariant of the state's form. -/
def Obligations.ResetHasTheStateInvariant : Prop := State.reset.Inv

/-- R22, R23, R24, R32, R9: every step keeps the form of the state: canonical grids of 6144 and 768 entries, a
canonical buffer of 76800 pixels, `CL >= 1`. -/
def Obligations.StepKeepsTheStateInvariant : Prop :=
  ∀ s t : State, s.Inv → step s = .next t → t.Inv

/-- The constructed block has the picture invariant. -/
def Obligations.ResetHasThePictureInvariant : Prop := State.reset.PictureInv

/-- R36: every step keeps the picture invariant: canvas and patch pixels are the reset pixel or a palette value, border
pixels outside the patch are the reset pixel, the patch has one colour, and the flash phase is the counter's. -/
def Obligations.StepKeepsThePictureInvariant : Prop :=
  ∀ s t : State, s.PictureInv → step s = .next t → t.PictureInv

/-- R9, R28, R35: the constants bound at construction never change. -/
def Obligations.StepKeepsTheConstants : Prop :=
  ∀ s t : State, step s = .next t → t.CFP = s.CFP ∧ t.CL = s.CL ∧ t.PB.background = s.PB.background
end

