-- ==== Sys2Proof/Laws/Beam.lean ====
section
/-! SUPPORT. The timing functions: what `beamLine` says of the block times, when each gate opens, and which lines a
caught attribute write draws. -/

namespace Sys2Proof.Machine

theorem columnOrigin_eq (cfp col : Nat) : columnOrigin cfp col = cfp + 2 + col / 2 * 8 := rfl

theorem blockTime_eq (cfp cl line col : Nat) : blockTime cfp cl line col = cfp + 2 + col / 2 * 8 + line * cl := rfl

theorem blockTime_zero (cfp cl col : Nat) : blockTime cfp cl 0 col = columnOrigin cfp col := by
  simp [blockTime]

theorem blockTime_mono {cfp cl l l' col : Nat} (h : l ≤ l') : blockTime cfp cl l col ≤ blockTime cfp cl l' col := by
  rw [blockTime_eq, blockTime_eq]
  have := Nat.mul_le_mul_right cl h
  omega

/-- R152's characterisation: a line's block time is still ahead of the clock exactly from `beamLine` on. -/
theorem lt_blockTime_iff {cfp cl : Nat} (hcl : 1 ≤ cl) (clock line col : Nat) :
    clock < blockTime cfp cl line col ↔ beamLine cfp cl clock col ≤ line := by
  unfold beamLine
  have hb : blockTime cfp cl line col = columnOrigin cfp col + line * cl := rfl
  generalize columnOrigin cfp col = o at hb ⊢
  rw [hb]
  split
  · exact ⟨fun _ => Nat.zero_le _, fun _ => by omega⟩
  · have h := Nat.div_lt_iff_lt_mul (x := clock - o) (y := line) hcl
    omega

theorem bitmapCaught_iff (cfp cl clock line col : Nat) :
    bitmapCaught cfp cl clock line col = true ↔ clock < blockTime cfp cl line col := decide_eq_true_iff

/-- R156: the attribute gate opens exactly while the beam has not passed the cell. -/
theorem attrCaught_iff {cfp cl : Nat} (hcl : 1 ≤ cl) (clock row col : Nat) :
    attrCaught cfp cl clock row col = true ↔ beamLine cfp cl clock col < (row + 1) * 8 := by
  unfold attrCaught attrBlockTime
  rw [decide_eq_true_iff]
  simp only
  split
  · rw [lt_blockTime_iff hcl]; omega
  · split
    · rw [lt_blockTime_iff hcl]; omega
    · rw [lt_blockTime_iff hcl]; omega

theorem attrRedrawLines_eq (cfp cl clock row col : Nat) :
    attrRedrawLines cfp cl clock row col =
      List.range' (row * 8 + beamLine cfp cl clock col % 8) (8 - beamLine cfp cl clock col % 8) := by
  unfold attrRedrawLines
  simp only
  congr 1
  omega

theorem mem_attrRedrawLines {cfp cl clock row col line : Nat} :
    line ∈ attrRedrawLines cfp cl clock row col ↔
      row * 8 + beamLine cfp cl clock col % 8 ≤ line ∧ line < (row + 1) * 8 := by
  rw [attrRedrawLines_eq, List.mem_range'_1]
  omega

end Sys2Proof.Machine
end

