-- ==== Sys2Proof/Laws/Cells.lean ====
section
/-! SUPPORT. The laws of sparse cells: what a run write reads as, that it keeps the canonical form, that canonical
cells are determined by what they read as. -/

namespace Sys2Proof.Machine

variable {α : Type}

@[simp] theorem readCells_nil (u : α) (i : Nat) : readCells u [] i = u := rfl

theorem readCells_cons (u : α) (c : Nat × α) (cells : List (Nat × α)) (i : Nat) :
    readCells u (c :: cells) i = if c.1 = i then c.2 else readCells u cells i := rfl

/-- An index no cell lists reads as the unlisted value. -/
theorem readCells_of_forall_ne {u : α} {cells : List (Nat × α)} {i : Nat} (h : ∀ c ∈ cells, c.1 ≠ i) :
    readCells u cells i = u := by
  induction cells with
  | nil => rfl
  | cons c cells ih =>
    rw [readCells_cons, if_neg (h c (by simp)), ih fun d hd => h d (by simp [hd])]

/-- Reading passes over a front part that does not list the index. -/
theorem readCells_append_of_forall_ne {u : α} {front back : List (Nat × α)} {i : Nat}
    (h : ∀ c ∈ front, c.1 ≠ i) : readCells u (front ++ back) i = readCells u back i := by
  induction front with
  | nil => rfl
  | cons c front ih =>
    rw [List.cons_append, readCells_cons, if_neg (h c (by simp)), ih fun d hd => h d (by simp [hd])]

/-- Reading stays in a front part if the back part does not list the index. -/
theorem readCells_append_of_back_ne {u : α} {front back : List (Nat × α)} {i : Nat}
    (h : ∀ c ∈ back, c.1 ≠ i) : readCells u (front ++ back) i = readCells u front i := by
  induction front with
  | nil => simpa using readCells_of_forall_ne h
  | cons c front ih => rw [List.cons_append, readCells_cons, readCells_cons, ih]

/-- A filter that keeps every cell of an index does not change what the index reads as. -/
theorem readCells_filter {u : α} {p : Nat × α → Bool} {cells : List (Nat × α)} {i : Nat}
    (h : ∀ c ∈ cells, c.1 = i → p c = true) : readCells u (cells.filter p) i = readCells u cells i := by
  induction cells with
  | nil => rfl
  | cons c cells ih =>
    have ih := ih fun d hd => h d (by simp [hd])
    by_cases hp : p c = true
    · rw [List.filter_cons_of_pos hp, readCells_cons, readCells_cons, ih]
    · have hc : c.1 ≠ i := fun hi => hp (h c (by simp) hi)
      rw [List.filter_cons_of_neg hp, readCells_cons, if_neg hc, ih]

variable [DecidableEq α]

theorem runCells_cons (u : α) (start : Nat) (v : α) (vs : List α) :
    runCells u start (v :: vs) =
      if v = u then runCells u (start + 1) vs else (start, v) :: runCells u (start + 1) vs := rfl

/-- The cells of a run lie inside it and list no unlisted value. -/
theorem runCells_mem {u : α} {vs : List α} {start : Nat} {c : Nat × α} (h : c ∈ runCells u start vs) :
    start ≤ c.1 ∧ c.1 < start + vs.length ∧ c.2 ≠ u := by
  induction vs generalizing start with
  | nil => simp [runCells] at h
  | cons v vs ih =>
    rw [runCells_cons] at h
    split at h
    · obtain ⟨h1, h2, h3⟩ := ih h
      exact ⟨by omega, by simp only [List.length_cons]; omega, h3⟩
    · rename_i hv
      rcases List.mem_cons.1 h with rfl | h
      · simp [hv]
      · obtain ⟨h1, h2, h3⟩ := ih h
        exact ⟨by omega, by simp only [List.length_cons]; omega, h3⟩

/-- The cells of a run stand by rising index. -/
theorem runCells_pairwise (u : α) (start : Nat) (vs : List α) :
    (runCells u start vs).Pairwise (fun c d => c.1 < d.1) := by
  induction vs generalizing start with
  | nil => simp [runCells]
  | cons v vs ih =>
    rw [runCells_cons]
    split
    · exact ih _
    · refine List.pairwise_cons.2 ⟨fun d hd => ?_, ih _⟩
      have := runCells_mem hd
      simp only
      omega

/-- A run's cells read as its values. -/
theorem readCells_runCells {u : α} {vs : List α} {start i : Nat} (h : start ≤ i) :
    readCells u (runCells u start vs) i = vs.getD (i - start) u := by
  induction vs generalizing start with
  | nil => simp [runCells]
  | cons v vs ih =>
    rw [runCells_cons]
    rcases Nat.eq_or_lt_of_le h with rfl | h'
    · split
      · rename_i hv
        rw [readCells_of_forall_ne]
        · simp [hv]
        · intro c hc
          have := (runCells_mem hc).1
          omega
      · simp [readCells_cons]
    · have hs : i - start = (i - (start + 1)) + 1 := by omega
      rw [hs, List.getD_cons_succ]
      split
      · exact ih h'
      · rw [readCells_cons, if_neg (by simp only; omega)]
        exact ih h'

/-- What a run write reads as: its own values inside the run, the old value everywhere else. It holds of any cells,
canonical or not. -/
theorem readCells_writeRun (u : α) (start : Nat) (vs : List α) (cells : List (Nat × α)) (i : Nat) :
    readCells u (writeRun u start vs cells) i =
      if start ≤ i ∧ i < start + vs.length then vs.getD (i - start) u else readCells u cells i := by
  unfold writeRun
  by_cases h1 : i < start
  · rw [if_neg (by omega), List.append_assoc, readCells_append_of_back_ne, readCells_filter]
    · intro c _ hc
      simp [hc, h1]
    · intro c hc
      rcases List.mem_append.1 hc with hc | hc
      · have := runCells_mem hc
        omega
      · simp only [List.mem_filter, decide_eq_true_eq] at hc
        omega
  · rw [List.append_assoc, readCells_append_of_forall_ne]
    · by_cases h2 : i < start + vs.length
      · rw [if_pos (by omega), readCells_append_of_back_ne, readCells_runCells (by omega)]
        intro c hc
        simp only [List.mem_filter, decide_eq_true_eq] at hc
        omega
      · rw [if_neg (by omega), readCells_append_of_forall_ne, readCells_filter]
        · intro c _ hc
          simp only [decide_eq_true_eq]
          omega
        · intro c hc
          have := runCells_mem hc
          omega
    · intro c hc
      simp only [List.mem_filter, decide_eq_true_eq] at hc
      omega

/-- A run write inside the size keeps the canonical form. -/
theorem canonical_writeRun {u : α} {size start : Nat} {vs : List α} {cells : List (Nat × α)}
    (h : Canonical u size cells) (hsize : start + vs.length ≤ size) :
    Canonical u size (writeRun u start vs cells) := by
  obtain ⟨hp, hm⟩ := h
  unfold writeRun
  constructor
  · rw [List.pairwise_append, List.pairwise_append]
    refine ⟨⟨hp.filter _, runCells_pairwise u start vs, ?_⟩, hp.filter _, ?_⟩
    · intro c hc d hd
      have := runCells_mem hd
      simp only [List.mem_filter, decide_eq_true_eq] at hc
      omega
    · intro c hc d hd
      simp only [List.mem_filter, decide_eq_true_eq] at hd
      rcases List.mem_append.1 hc with hc | hc
      · simp only [List.mem_filter, decide_eq_true_eq] at hc
        omega
      · have := runCells_mem hc
        omega
  · intro c hc
    rcases List.mem_append.1 hc with hc | hc
    · rcases List.mem_append.1 hc with hc | hc
      · exact hm c (List.mem_filter.1 hc).1
      · have := runCells_mem hc
        exact ⟨by omega, this.2.2⟩
    · exact hm c (List.mem_filter.1 hc).1

omit [DecidableEq α] in
/-- Canonical cells list an index exactly when it does not read as the unlisted value. -/
theorem readCells_of_mem {u : α} {cells : List (Nat × α)} (hp : cells.Pairwise (fun c d => c.1 < d.1))
    {c : Nat × α} (hc : c ∈ cells) : readCells u cells c.1 = c.2 := by
  induction cells with
  | nil => simp at hc
  | cons d cells ih =>
    rw [List.pairwise_cons] at hp
    rcases List.mem_cons.1 hc with rfl | hc
    · simp [readCells_cons]
    · have := hp.1 c hc
      rw [readCells_cons, if_neg (by omega), ih hp.2 hc]

omit [DecidableEq α] in
/-- Canonical cells that read alike everywhere are equal. -/
theorem canonical_ext {u : α} {size : Nat} {xs ys : List (Nat × α)} (hx : Canonical u size xs)
    (hy : Canonical u size ys) (h : ∀ i, readCells u xs i = readCells u ys i) : xs = ys := by
  have sub : ∀ {as bs : List (Nat × α)}, Canonical u size as → Canonical u size bs →
      (∀ i, readCells u as i = readCells u bs i) → ∀ c ∈ as, c ∈ bs := by
    intro as bs ha hb hab c hc
    have hr : readCells u bs c.1 = c.2 := by rw [← hab, readCells_of_mem ha.1 hc]
    by_contra hn
    by_cases hl : ∃ d ∈ bs, d.1 = c.1
    · obtain ⟨d, hd, hdc⟩ := hl
      have : readCells u bs d.1 = d.2 := readCells_of_mem hb.1 hd
      rw [hdc, hr] at this
      exact hn ((Prod.ext hdc this.symm : d = c) ▸ hd)
    · simp only [not_exists, not_and] at hl
      rw [readCells_of_forall_ne hl] at hr
      exact (ha.2 c hc).2 hr.symm
  have nodup : ∀ {as : List (Nat × α)}, as.Pairwise (fun c d => c.1 < d.1) → as.Nodup := by
    intro as ha
    exact ha.imp fun {a b} hab heq => by rw [heq] at hab; omega
  have hperm : xs.Perm ys :=
    (List.perm_ext_iff_of_nodup (nodup hx.1) (nodup hy.1)).2 fun c =>
      ⟨sub hx hy h c, sub hy hx (fun i => (h i).symm) c⟩
  exact hperm.eq_of_pairwise (fun a b _ _ hab hba => absurd hab (by omega)) hx.1 hy.1

/-- The empty grid, the reset contents, is in canonical form. -/
theorem Memory.wf_nil (size : Nat) : Memory.wf [] size := ⟨.nil, by simp⟩

/-- Two grids in canonical form that read alike are equal. -/
theorem Memory.ext_of_wf {m n : Memory} {size : Nat} (hm : m.wf size) (hn : n.wf size)
    (h : ∀ i, m.read i = n.read i) : m = n := canonical_ext hm hn h

/-! ### Runs written one after the other -/

section runs
variable {α : Type} [DecidableEq α]

/-- Writing a run twice is writing it once. -/
theorem writeRun_idem (u : α) (start : Nat) (vs : List α) (cells : List (Nat × α)) :
    writeRun u start vs (writeRun u start vs cells) = writeRun u start vs cells := by
  unfold writeRun
  simp only [List.filter_append, List.filter_filter]
  have e1 : (runCells u start vs).filter (fun c => decide (c.1 < start)) = [] := by
    rw [List.filter_eq_nil_iff]; intro c hc; have := runCells_mem hc; simp; omega
  have e2 : (runCells u start vs).filter (fun c => decide (start + vs.length ≤ c.1)) = [] := by
    rw [List.filter_eq_nil_iff]; intro c hc; have := runCells_mem hc; simp; omega
  have e3 : cells.filter (fun c => decide (c.1 < start) && decide (start + vs.length ≤ c.1)) = [] := by
    rw [List.filter_eq_nil_iff]; intro c _; simp; omega
  have e4 : cells.filter (fun c => decide (start + vs.length ≤ c.1) && decide (c.1 < start)) = [] := by
    rw [List.filter_eq_nil_iff]; intro c _; simp; omega
  rw [e1, e2, e3, e4]
  simp

theorem runCells_append (u : α) (vs ws : List α) (start : Nat) :
    runCells u start (vs ++ ws) = runCells u start vs ++ runCells u (start + vs.length) ws := by
  induction vs generalizing start with
  | nil => rfl
  | cons v vs ih =>
    rw [List.cons_append, runCells_cons, runCells_cons, ih, List.length_cons,
      show start + 1 + vs.length = start + (vs.length + 1) by omega]
    split <;> rfl

/-- A run is its two parts, written one after the other. -/
theorem writeRun_append (u : α) (start : Nat) (vs ws : List α) (cells : List (Nat × α)) :
    writeRun u start (vs ++ ws) cells = writeRun u (start + vs.length) ws (writeRun u start vs cells) := by
  unfold writeRun
  simp only [List.filter_append, List.filter_filter]
  rw [runCells_append]
  have e1 : (runCells u start vs).filter (fun c => decide (c.1 < start + vs.length)) = runCells u start vs := by
    rw [List.filter_eq_self]; intro c hc; have := runCells_mem hc; simp; omega
  have e2 : (runCells u start vs).filter (fun c => decide (start + vs.length + ws.length ≤ c.1)) = [] := by
    rw [List.filter_eq_nil_iff]; intro c hc; have := runCells_mem hc; simp; omega
  have e3 : cells.filter (fun c => decide (c.1 < start + vs.length) && decide (c.1 < start)) =
      cells.filter (fun c => decide (c.1 < start)) := by
    apply List.filter_congr; intro c _; simp; omega
  have e4 : cells.filter (fun c => decide (c.1 < start + vs.length) && decide (start + vs.length ≤ c.1)) = [] := by
    rw [List.filter_eq_nil_iff]; intro c _; simp
  have e5 : cells.filter (fun c => decide (start + vs.length + ws.length ≤ c.1) && decide (c.1 < start)) = [] := by
    rw [List.filter_eq_nil_iff]; intro c _; simp; omega
  have e6 : cells.filter (fun c => decide (start + vs.length + ws.length ≤ c.1) &&
      decide (start + vs.length ≤ c.1)) = cells.filter (fun c => decide (start + (vs ++ ws).length ≤ c.1)) := by
    apply List.filter_congr; intro c _; rw [Bool.eq_iff_iff]; simp; omega
  rw [e1, e2, e3, e4, e5, e6]
  simp

end runs

end Sys2Proof.Machine
end

