-- ==== Sys2Proof/Laws/Codec.lean ====
section
/-! SUPPORT. The address codec as arithmetic on natural numbers: bit fields as quotients and remainders. -/

namespace Sys2Proof.Machine

/-- Concatenation as arithmetic. -/
theorem toNat_append_eq {m n : Nat} (x : BitVec m) (y : BitVec n) :
    (x ++ y).toNat = x.toNat * 2 ^ n + y.toNat := by
  rw [BitVec.toNat_append, ← Nat.shiftLeft_add_eq_or_of_lt y.isLt, Nat.shiftLeft_eq]

/-- A field as arithmetic. -/
theorem toNat_extract_eq {n : Nat} (x : BitVec n) (lo len : Nat) :
    (x.extractLsb' lo len).toNat = x.toNat / 2 ^ lo % 2 ^ len := by
  rw [BitVec.extractLsb'_toNat, Nat.shiftRight_eq_div_pow]

/-- The fields of a bitmap address given by its parts: third `q`, line in the character row `r`, character row `m`,
column `c` (30_encoding.md R82). -/
theorem fields_of_parts {q m r c n : Nat} (hq : q < 4) (hm : m < 8) (hr : r < 8) (hc : c < 32)
    (hn : n = 0x4000 + q * 2048 + r * 256 + m * 32 + c) :
    n / 2048 % 4 = q ∧ n / 256 % 8 = r ∧ n / 32 % 8 = m ∧ n % 32 = c := by
  subst hn
  refine ⟨by omega, by omega, by omega, by omega⟩

/-- A line number from its parts. -/
theorem line_parts {q m r l : Nat} (hm : m < 8) (hr : r < 8) (hl : l = q * 64 + m * 8 + r) :
    l / 64 = q ∧ l / 8 % 8 = m ∧ l % 8 = r := by
  subst hl
  refine ⟨by omega, by omega, by omega⟩

/-- A bitmap-region address is the sum of its fields. -/
theorem address_eq_sum_of_fields {n : Nat} (h : 0x4000 ≤ n) (h' : n ≤ 0x57FF) :
    n = 0x4000 + n / 2048 % 4 * 2048 + n / 256 % 8 * 256 + n / 32 % 8 * 32 + n % 32 := by omega

theorem bitmapLineAddress_toNat (line : BitVec 8) :
    (bitmapLineAddress line).toNat =
      0x4000 + line.toNat / 64 * 2048 + line.toNat % 8 * 256 + line.toNat / 8 % 8 * 32 := by
  have h := line.isLt
  unfold bitmapLineAddress
  simp only [toNat_append_eq, toNat_extract_eq]
  norm_num
  omega

theorem bitmapRowFromAddress_toNat (a : Addr) :
    (bitmapRowFromAddress a).toNat = a.toNat / 2048 % 4 * 64 + a.toNat / 32 % 8 * 8 + a.toNat / 256 % 8 := by
  unfold bitmapRowFromAddress
  simp only [toNat_append_eq, toNat_extract_eq]
  norm_num
  omega

theorem bitmapColumnFromAddress_toNat (a : Addr) : (bitmapColumnFromAddress a).toNat = a.toNat % 32 := by
  unfold bitmapColumnFromAddress
  rw [toNat_extract_eq]
  norm_num

theorem bitmapAddress_toNat (line : BitVec 8) (col : BitVec 5) :
    (bitmapAddress line col).toNat =
      0x4000 + line.toNat / 64 * 2048 + line.toNat % 8 * 256 + line.toNat / 8 % 8 * 32 + col.toNat := by
  have hc := col.isLt
  unfold bitmapAddress
  rw [BitVec.toNat_or, BitVec.toNat_setWidth_of_le (by decide), bitmapLineAddress_toNat]
  have hl : 0x4000 + line.toNat / 64 * 2048 + line.toNat % 8 * 256 + line.toNat / 8 % 8 * 32 =
      (0x200 + line.toNat / 64 * 64 + line.toNat % 8 * 8 + line.toNat / 8 % 8) <<< 5 := by
    rw [Nat.shiftLeft_eq]; omega
  rw [hl, Nat.shiftLeft_add_eq_or_of_lt hc]

/-- An attribute address of `0x5800` or above is the base plus its offset. -/
theorem toNat_eq_base_add_offset {a : Addr} (h : 0x5800 ≤ a.toNat) : a.toNat = 0x5800 + attrOffset a := by
  have hb : attrBase.toNat = 0x5800 := rfl
  unfold attrOffset
  rw [BitVec.toNat_sub, hb]
  have := a.isLt
  omega

theorem attrOffset_eq {a : Addr} {n : Nat} (h : a.toNat = 0x5800 + n) : attrOffset a = n := by
  have := toNat_eq_base_add_offset (a := a) (by omega)
  omega

theorem attrRowFromAddress_eq (a : Addr) : attrRowFromAddress a = attrOffset a / 32 := rfl

theorem attrColumnFromAddress_toNat (a : Addr) : (attrColumnFromAddress a).toNat = attrOffset a % 32 := by
  unfold attrColumnFromAddress
  rw [BitVec.toNat_ofNat]
  omega

theorem attrAddress_toNat {row col : Nat} (hr : row ≤ 23) (hc : col ≤ 31) :
    (attrAddress row col).toNat = 0x5800 + 32 * row + col := by
  have hb : attrBase.toNat = 0x5800 := rfl
  unfold attrAddress
  rw [BitVec.toNat_ofNat, hb]
  omega

theorem inBitmapRegion_iff (a : Addr) : inBitmapRegion a = true ↔ 0x4000 ≤ a.toNat ∧ a.toNat ≤ 0x57FF :=
  decide_eq_true_iff

theorem inAttrRegion_iff (a : Addr) : inAttrRegion a = true ↔ 0x5800 ≤ a.toNat ∧ a.toNat ≤ 0x5AFF :=
  decide_eq_true_iff

theorem bitmapRow_lt {a : Addr} (h : inBitmapRegion a = true) : (bitmapRowFromAddress a).toNat < 192 := by
  rw [inBitmapRegion_iff] at h
  rw [bitmapRowFromAddress_toNat]
  omega

theorem bitmapColumn_lt (a : Addr) : (bitmapColumnFromAddress a).toNat < 32 := (bitmapColumnFromAddress a).isLt

theorem attrRow_lt {a : Addr} (h : inAttrRegion a = true) : attrRowFromAddress a < 24 := by
  rw [inAttrRegion_iff] at h
  have := toNat_eq_base_add_offset h.1
  rw [attrRowFromAddress_eq]
  omega

theorem attrColumn_lt (a : Addr) : (attrColumnFromAddress a).toNat < 32 := (attrColumnFromAddress a).isLt

end Sys2Proof.Machine
end

