-- ==== Sys2Proof/Laws/State.lean ====
section
/-! SUPPORT. One lemma per field of the state for each update, so that no proof unfolds a record update. -/

namespace Sys2Proof.Machine

section storeBitmap
variable (s : State) (line col : Nat) (b : Byte)

@[simp] theorem storeBitmap_BM : (s.storeBitmap line col b).BM = s.BM.write (gridIndex line col) b := rfl
@[simp] theorem storeBitmap_AT : (s.storeBitmap line col b).AT = s.AT := rfl
@[simp] theorem storeBitmap_PB : (s.storeBitmap line col b).PB = s.PB := rfl
@[simp] theorem storeBitmap_FLASH : (s.storeBitmap line col b).FLASH = s.FLASH := rfl
@[simp] theorem storeBitmap_FC : (s.storeBitmap line col b).FC = s.FC := rfl
@[simp] theorem storeBitmap_FAULT : (s.storeBitmap line col b).FAULT = s.FAULT := rfl
@[simp] theorem storeBitmap_CFP : (s.storeBitmap line col b).CFP = s.CFP := rfl
@[simp] theorem storeBitmap_CL : (s.storeBitmap line col b).CL = s.CL := rfl
@[simp] theorem storeBitmap_pending : (s.storeBitmap line col b).pending = s.pending := rfl
@[simp] theorem storeBitmap_result : (s.storeBitmap line col b).result = s.result := rfl

end storeBitmap

section storeAttr
variable (s : State) (row col : Nat) (b : Byte)

@[simp] theorem storeAttr_BM : (s.storeAttr row col b).BM = s.BM := rfl
@[simp] theorem storeAttr_AT : (s.storeAttr row col b).AT = s.AT.write (gridIndex row col) b := rfl
@[simp] theorem storeAttr_PB : (s.storeAttr row col b).PB = s.PB := rfl
@[simp] theorem storeAttr_FLASH : (s.storeAttr row col b).FLASH = s.FLASH := rfl
@[simp] theorem storeAttr_FC : (s.storeAttr row col b).FC = s.FC := rfl
@[simp] theorem storeAttr_FAULT : (s.storeAttr row col b).FAULT = s.FAULT := rfl
@[simp] theorem storeAttr_CFP : (s.storeAttr row col b).CFP = s.CFP := rfl
@[simp] theorem storeAttr_CL : (s.storeAttr row col b).CL = s.CL := rfl
@[simp] theorem storeAttr_pending : (s.storeAttr row col b).pending = s.pending := rfl
@[simp] theorem storeAttr_result : (s.storeAttr row col b).result = s.result := rfl

end storeAttr

section respond
variable (s : State) (r : Result)

@[simp] theorem respond_BM : (s.respond r).BM = s.BM := rfl
@[simp] theorem respond_AT : (s.respond r).AT = s.AT := rfl
@[simp] theorem respond_PB : (s.respond r).PB = s.PB := rfl
@[simp] theorem respond_FLASH : (s.respond r).FLASH = s.FLASH := rfl
@[simp] theorem respond_FC : (s.respond r).FC = s.FC := rfl
@[simp] theorem respond_FAULT : (s.respond r).FAULT = s.FAULT := rfl
@[simp] theorem respond_CFP : (s.respond r).CFP = s.CFP := rfl
@[simp] theorem respond_CL : (s.respond r).CL = s.CL := rfl
@[simp] theorem respond_pending : (s.respond r).pending = s.pending := rfl
@[simp] theorem respond_result : (s.respond r).result = r := rfl

end respond

section raise
variable (s : State) (v : Violation)

@[simp] theorem raise_BM : (s.raise v).BM = s.BM := rfl
@[simp] theorem raise_AT : (s.raise v).AT = s.AT := rfl
@[simp] theorem raise_PB : (s.raise v).PB = s.PB := rfl
@[simp] theorem raise_FLASH : (s.raise v).FLASH = s.FLASH := rfl
@[simp] theorem raise_FC : (s.raise v).FC = s.FC := rfl
@[simp] theorem raise_FAULT : (s.raise v).FAULT = some (s.FAULT.getD v) := rfl
@[simp] theorem raise_CFP : (s.raise v).CFP = s.CFP := rfl
@[simp] theorem raise_CL : (s.raise v).CL = s.CL := rfl
@[simp] theorem raise_pending : (s.raise v).pending = s.pending := rfl
@[simp] theorem raise_result : (s.raise v).result = .none := rfl

/-- Fault entry in a state without a fault (60_exceptions.md R203). -/
theorem raise_of_none {s : State} (h : s.FAULT = none) (v : Violation) :
    s.raise v = { s with FAULT := some v, result := .none } := by
  unfold State.raise; rw [h]; rfl

/-- Fault entry keeps a cause already latched. -/
theorem raise_of_some {s : State} {w : Violation} (h : s.FAULT = some w) (v : Violation) :
    s.raise v = { s with result := .none } := by
  unfold State.raise; rw [h]; rfl

end raise

section advanceFrame
variable (s : State)

@[simp] theorem advanceFrame_BM : (advanceFrame s).BM = s.BM := rfl
@[simp] theorem advanceFrame_AT : (advanceFrame s).AT = s.AT := rfl
@[simp] theorem advanceFrame_PB : (advanceFrame s).PB = s.PB := rfl
@[simp] theorem advanceFrame_FLASH : (advanceFrame s).FLASH = nextFlash (s.FC + 1) s.FLASH := rfl
@[simp] theorem advanceFrame_FC : (advanceFrame s).FC = s.FC + 1 := rfl
@[simp] theorem advanceFrame_FAULT : (advanceFrame s).FAULT = s.FAULT := rfl
@[simp] theorem advanceFrame_CFP : (advanceFrame s).CFP = s.CFP := rfl
@[simp] theorem advanceFrame_CL : (advanceFrame s).CL = s.CL := rfl
@[simp] theorem advanceFrame_pending : (advanceFrame s).pending = s.pending := rfl
@[simp] theorem advanceFrame_result : (advanceFrame s).result = s.result := rfl

end advanceFrame

section updateBlock
variable (s : State) (line col : Nat)

@[simp] theorem updateBlock_BM : (updateBlock line col s).BM = s.BM := rfl
@[simp] theorem updateBlock_AT : (updateBlock line col s).AT = s.AT := rfl
theorem updateBlock_PB : (updateBlock line col s).PB = drawBlock s s.PB line col := rfl
@[simp] theorem updateBlock_FLASH : (updateBlock line col s).FLASH = s.FLASH := rfl
@[simp] theorem updateBlock_FC : (updateBlock line col s).FC = s.FC := rfl
@[simp] theorem updateBlock_FAULT : (updateBlock line col s).FAULT = s.FAULT := rfl
@[simp] theorem updateBlock_CFP : (updateBlock line col s).CFP = s.CFP := rfl
@[simp] theorem updateBlock_CL : (updateBlock line col s).CL = s.CL := rfl
@[simp] theorem updateBlock_pending : (updateBlock line col s).pending = s.pending := rfl
@[simp] theorem updateBlock_result : (updateBlock line col s).result = s.result := rfl

end updateBlock

section fullRedraw
variable (s : State)

@[simp] theorem fullRedraw_BM : (fullRedraw s).BM = s.BM := by simp only [fullRedraw]
@[simp] theorem fullRedraw_AT : (fullRedraw s).AT = s.AT := by simp only [fullRedraw]
theorem fullRedraw_PB : (fullRedraw s).PB = (List.range canvasH).foldl (drawLine s) s.PB := by simp only [fullRedraw]
@[simp] theorem fullRedraw_FLASH : (fullRedraw s).FLASH = s.FLASH := by simp only [fullRedraw]
@[simp] theorem fullRedraw_FC : (fullRedraw s).FC = s.FC := by simp only [fullRedraw]
@[simp] theorem fullRedraw_FAULT : (fullRedraw s).FAULT = s.FAULT := by simp only [fullRedraw]
@[simp] theorem fullRedraw_CFP : (fullRedraw s).CFP = s.CFP := by simp only [fullRedraw]
@[simp] theorem fullRedraw_CL : (fullRedraw s).CL = s.CL := by simp only [fullRedraw]
@[simp] theorem fullRedraw_pending : (fullRedraw s).pending = s.pending := by simp only [fullRedraw]
@[simp] theorem fullRedraw_result : (fullRedraw s).result = s.result := by simp only [fullRedraw]

end fullRedraw

section paintPatch
variable (s : State) (c : Rgba)

@[simp] theorem paintPatch_BM : (paintPatch c s).BM = s.BM := by simp only [paintPatch]
@[simp] theorem paintPatch_AT : (paintPatch c s).AT = s.AT := by simp only [paintPatch]
theorem paintPatch_PB : (paintPatch c s).PB = (List.range borderPatchSide).foldl (paintRow c) s.PB := by simp only [paintPatch]
@[simp] theorem paintPatch_FLASH : (paintPatch c s).FLASH = s.FLASH := by simp only [paintPatch]
@[simp] theorem paintPatch_FC : (paintPatch c s).FC = s.FC := by simp only [paintPatch]
@[simp] theorem paintPatch_FAULT : (paintPatch c s).FAULT = s.FAULT := by simp only [paintPatch]
@[simp] theorem paintPatch_CFP : (paintPatch c s).CFP = s.CFP := by simp only [paintPatch]
@[simp] theorem paintPatch_CL : (paintPatch c s).CL = s.CL := by simp only [paintPatch]
@[simp] theorem paintPatch_pending : (paintPatch c s).pending = s.pending := by simp only [paintPatch]
@[simp] theorem paintPatch_result : (paintPatch c s).result = s.result := by simp only [paintPatch]

end paintPatch

/-- R174: the flash phase toggles when the incremented counter is a multiple of 32. -/
theorem nextFlash_eq (fc : Nat) (flash : Bool) : nextFlash fc flash = if fc % 32 = 0 then !flash else flash := by
  unfold nextFlash flashToggles
  exact if_congr beq_iff_eq rfl rfl

/-! The reads of the grids and of the buffer depend on one field each. -/

section reads
variable (s t : State)

theorem bitmapAt_congr (h : t.BM = s.BM) (line col : Nat) : t.bitmapAt line col = s.bitmapAt line col := by
  unfold State.bitmapAt; rw [h]

theorem attrAt_congr (h : t.AT = s.AT) (row col : Nat) : t.attrAt row col = s.attrAt row col := by
  unfold State.attrAt; rw [h]

theorem pixel_congr (h : t.PB = s.PB) (i : Nat) : t.pixel i = s.pixel i := by unfold State.pixel; rw [h]

@[simp] theorem pixel_respond (r : Result) (i : Nat) : (s.respond r).pixel i = s.pixel i := rfl

@[simp] theorem bitmapAt_respond (r : Result) (line col : Nat) : (s.respond r).bitmapAt line col = s.bitmapAt line col := rfl

@[simp] theorem attrAt_respond (r : Result) (row col : Nat) : (s.respond r).attrAt row col = s.attrAt row col := rfl

theorem shownPixel_congr (hb : t.BM = s.BM) (ha : t.AT = s.AT) (hf : t.FLASH = s.FLASH) (line col k : Nat) :
    t.shownPixel line col k = s.shownPixel line col k := by
  unfold State.shownPixel; rw [bitmapAt_congr s t hb, attrAt_congr s t ha, hf]

theorem blockPixels_congr (hb : t.BM = s.BM) (ha : t.AT = s.AT) (hf : t.FLASH = s.FLASH) (line col : Nat) :
    blockPixels t line col = blockPixels s line col := by
  unfold blockPixels; rw [bitmapAt_congr s t hb, attrAt_congr s t ha, hf]

end reads

/-! The state after construction. -/

section construct
variable (cfp cl : Nat) (p : Rgba)

@[simp] theorem construct_BM : (State.construct cfp cl p).BM = [] := rfl
@[simp] theorem construct_AT : (State.construct cfp cl p).AT = [] := rfl
@[simp] theorem construct_PB : (State.construct cfp cl p).PB = ⟨p, []⟩ := rfl
@[simp] theorem construct_FLASH : (State.construct cfp cl p).FLASH = false := rfl
@[simp] theorem construct_FC : (State.construct cfp cl p).FC = 0 := rfl
@[simp] theorem construct_FAULT : (State.construct cfp cl p).FAULT = none := rfl
@[simp] theorem construct_CFP : (State.construct cfp cl p).CFP = cfp := rfl
@[simp] theorem construct_CL : (State.construct cfp cl p).CL = cl := rfl
@[simp] theorem construct_pending : (State.construct cfp cl p).pending = [] := rfl
@[simp] theorem construct_result : (State.construct cfp cl p).result = .none := rfl

end construct

end Sys2Proof.Machine
end

