-- ==== Sys2Proof/Laws/Draw.lean ====
section
/-! SUPPORT. What each drawing operation does to every pixel of the buffer, and that it keeps the buffer's canonical
form. -/

namespace Sys2Proof.Machine

/-! ### The grids -/

theorem Memory.read_write (m : Memory) (i j : Nat) (b : Byte) :
    (m.write i b).read j = if j = i then b else m.read j := by
  unfold Memory.read Memory.write
  rw [readCells_writeRun]
  by_cases h : j = i
  · subst h; simp
  · rw [if_neg (by simp only [List.length_singleton]; omega), if_neg h]

theorem Memory.wf_write {m : Memory} {size i : Nat} (h : m.wf size) (hi : i < size) (b : Byte) :
    (m.write i b).wf size := canonical_writeRun h (by simp only [List.length_singleton]; omega)

theorem gridIndex_inj {r c r' c' : Nat} (hc : c < 32) (hc' : c' < 32) :
    gridIndex r c = gridIndex r' c' ↔ r = r' ∧ c = c' := by
  simp only [gridIndex, blockCols]
  omega

theorem bitmapAt_storeBitmap (s : State) (b : Byte) {line col l c : Nat} (hcol : col < 32) (hc : c < 32) :
    (s.storeBitmap line col b).bitmapAt l c = if l = line ∧ c = col then b else s.bitmapAt l c := by
  unfold State.bitmapAt
  rw [storeBitmap_BM, Memory.read_write]
  exact if_congr (gridIndex_inj hc hcol) rfl rfl

theorem attrAt_storeAttr (s : State) (b : Byte) {row col r c : Nat} (hcol : col < 32) (hc : c < 32) :
    (s.storeAttr row col b).attrAt r c = if r = row ∧ c = col then b else s.attrAt r c := by
  unfold State.attrAt
  rw [storeAttr_AT, Memory.read_write]
  exact if_congr (gridIndex_inj hc hcol) rfl rfl

@[simp] theorem attrAt_storeBitmap (s : State) (line col : Nat) (b : Byte) (r c : Nat) :
    (s.storeBitmap line col b).attrAt r c = s.attrAt r c := attrAt_congr _ _ rfl _ _

@[simp] theorem bitmapAt_storeAttr (s : State) (row col : Nat) (b : Byte) (l c : Nat) :
    (s.storeAttr row col b).bitmapAt l c = s.bitmapAt l c := bitmapAt_congr _ _ rfl _ _

@[simp] theorem pixel_storeBitmap (s : State) (line col : Nat) (b : Byte) (i : Nat) :
    (s.storeBitmap line col b).pixel i = s.pixel i := pixel_congr _ _ rfl _

@[simp] theorem pixel_storeAttr (s : State) (row col : Nat) (b : Byte) (i : Nat) :
    (s.storeAttr row col b).pixel i = s.pixel i := pixel_congr _ _ rfl _

/-! ### Runs of pixels -/

@[simp] theorem PixelBuffer.writeRun_background (pb : PixelBuffer) (start : Nat) (px : List Rgba) :
    (pb.writeRun start px).background = pb.background := rfl

theorem PixelBuffer.read_writeRun (pb : PixelBuffer) (start : Nat) (px : List Rgba) (i : Nat) :
    (pb.writeRun start px).read i =
      if start ≤ i ∧ i < start + px.length then px.getD (i - start) pb.background else pb.read i :=
  readCells_writeRun _ _ _ _ _

theorem PixelBuffer.wf_writeRun {pb : PixelBuffer} (h : pb.wf) {start : Nat} {px : List Rgba}
    (hsize : start + px.length ≤ 76800) : (pb.writeRun start px).wf := canonical_writeRun h hsize

/-! ### Blocks and lines -/

theorem pixelIndex_eq (x y : Nat) : pixelIndex x y = y * 320 + x := rfl

theorem blockStart_eq (line col : Nat) : blockStart line col = (24 + line) * 320 + (32 + 8 * col) := rfl

@[simp] theorem blockPixels_length (s : State) (line col : Nat) : (blockPixels s line col).length = 8 := rfl

theorem blockPixels_getD (s : State) (line col : Nat) {k : Nat} (hk : k < 8) (d : Rgba) :
    (blockPixels s line col).getD k d = s.shownPixel line col k := by
  have : k = 0 ∨ k = 1 ∨ k = 2 ∨ k = 3 ∨ k = 4 ∨ k = 5 ∨ k = 6 ∨ k = 7 := by omega
  rcases this with rfl | rfl | rfl | rfl | rfl | rfl | rfl | rfl <;> rfl

@[simp] theorem drawBlock_background (s : State) (pb : PixelBuffer) (line col : Nat) :
    (drawBlock s pb line col).background = pb.background := rfl

theorem read_drawBlock (s : State) (pb : PixelBuffer) (line col i : Nat) :
    (drawBlock s pb line col).read i =
      if blockStart line col ≤ i ∧ i < blockStart line col + 8 then
        s.shownPixel line col (i - blockStart line col)
      else pb.read i := by
  unfold drawBlock
  rw [PixelBuffer.read_writeRun, blockPixels_length]
  split
  · exact blockPixels_getD s line col (by omega) _
  · rfl

/-- Blocks side by side: position `j` of pieces of length 8 is position `j % 8` of piece `j / 8`. -/
theorem getD_flatMap_of_length_eight {f : Nat → List Rgba} (hf : ∀ c, (f c).length = 8) (n j : Nat) (d : Rgba)
    (hj : j < 8 * n) : ((List.range n).flatMap f).getD j d = (f (j / 8)).getD (j % 8) d := by
  have hlen : ∀ n, ((List.range n).flatMap f).length = 8 * n := by
    intro n
    simp [List.length_flatMap, hf, Nat.mul_comm]
  induction n with
  | zero => omega
  | succ n ih =>
    rw [List.range_succ, List.flatMap_append]
    by_cases h : j < 8 * n
    · rw [List.getD_append _ _ _ _ (by rw [hlen]; exact h), ih h]
    · rw [List.getD_append_right _ _ _ _ (by rw [hlen]; omega), hlen]
      have h1 : j - 8 * n = j % 8 := by omega
      have h2 : j / 8 = n := by omega
      simp [h1, h2]

@[simp] theorem linePixels_length (s : State) (line : Nat) : (linePixels s line).length = 256 := by
  simp [linePixels, List.length_flatMap]

@[simp] theorem drawLine_background (s : State) (pb : PixelBuffer) (line : Nat) :
    (drawLine s pb line).background = pb.background := rfl

theorem read_drawLine (s : State) (pb : PixelBuffer) (line i : Nat) :
    (drawLine s pb line).read i =
      if blockStart line 0 ≤ i ∧ i < blockStart line 0 + 256 then
        s.shownPixel line ((i - blockStart line 0) / 8) ((i - blockStart line 0) % 8)
      else pb.read i := by
  unfold drawLine
  rw [PixelBuffer.read_writeRun, linePixels_length]
  split
  · unfold linePixels
    rw [getD_flatMap_of_length_eight (blockPixels_length s line) _ _ _ (by simp only [blockCols]; omega),
      blockPixels_getD _ _ _ (by omega)]
  · rfl

/-! ### `updateBlock` and its loops -/

@[simp] theorem updateBlock_background (s : State) (line col : Nat) :
    (updateBlock line col s).PB.background = s.PB.background := rfl

/-- R171: the eight pixels of the block, and no other. -/
theorem pixel_updateBlock (s : State) {line col : Nat} (hcol : col < 32) (i : Nat) :
    (updateBlock line col s).pixel i =
      if i / 320 = 24 + line ∧ 32 + 8 * col ≤ i % 320 ∧ i % 320 < 40 + 8 * col then
        s.shownPixel line col ((i % 320 - 32) % 8)
      else s.pixel i := by
  unfold State.pixel
  rw [updateBlock_PB, read_drawBlock]
  have hb := blockStart_eq line col
  by_cases h : i / 320 = 24 + line ∧ 32 + 8 * col ≤ i % 320 ∧ i % 320 < 40 + 8 * col
  · rw [if_pos h, if_pos (by omega)]; congr 1; omega
  · rw [if_neg h, if_neg (by omega)]

theorem updateLines_nil (col : Nat) (s : State) : updateLines [] col s = s := rfl

theorem updateLines_cons (line : Nat) (lines : List Nat) (col : Nat) (s : State) :
    updateLines (line :: lines) col s = updateLines lines col (updateBlock line col s) := rfl

/-- Drawing lines of a column changes the buffer alone. -/
theorem updateLines_eq (lines : List Nat) (col : Nat) (s : State) :
    updateLines lines col s =
      { s with PB := lines.foldl (fun pb line => drawBlock s pb line col) s.PB } := by
  induction lines generalizing s with
  | nil => rfl
  | cons line lines ih =>
    rw [updateLines_cons, ih]
    rfl

section updateLines
variable (lines : List Nat) (col : Nat) (s : State)

@[simp] theorem updateLines_BM : (updateLines lines col s).BM = s.BM := by rw [updateLines_eq]
@[simp] theorem updateLines_AT : (updateLines lines col s).AT = s.AT := by rw [updateLines_eq]
@[simp] theorem updateLines_FLASH : (updateLines lines col s).FLASH = s.FLASH := by rw [updateLines_eq]
@[simp] theorem updateLines_FC : (updateLines lines col s).FC = s.FC := by rw [updateLines_eq]
@[simp] theorem updateLines_FAULT : (updateLines lines col s).FAULT = s.FAULT := by rw [updateLines_eq]
@[simp] theorem updateLines_CFP : (updateLines lines col s).CFP = s.CFP := by rw [updateLines_eq]
@[simp] theorem updateLines_CL : (updateLines lines col s).CL = s.CL := by rw [updateLines_eq]
@[simp] theorem updateLines_pending : (updateLines lines col s).pending = s.pending := by rw [updateLines_eq]
@[simp] theorem updateLines_result : (updateLines lines col s).result = s.result := by rw [updateLines_eq]

@[simp] theorem updateLines_background : (updateLines lines col s).PB.background = s.PB.background := by
  induction lines generalizing s with
  | nil => rfl
  | cons line lines ih => rw [updateLines_cons, ih]; rfl

end updateLines

/-- R176: the pixels of the lines drawn, in the column, and no other. -/
theorem pixel_updateLines (s : State) {col : Nat} (hcol : col < 32) (first n i : Nat) :
    (updateLines (List.range' first n) col s).pixel i =
      if 24 + first ≤ i / 320 ∧ i / 320 < 24 + first + n ∧ 32 + 8 * col ≤ i % 320 ∧ i % 320 < 40 + 8 * col then
        s.shownPixel (i / 320 - 24) col ((i % 320 - 32) % 8)
      else s.pixel i := by
  induction n generalizing first s with
  | zero => rw [if_neg (by omega)]; rfl
  | succ n ih =>
    rw [List.range'_succ, updateLines_cons, ih, pixel_updateBlock s hcol,
      shownPixel_congr s _ (updateBlock_BM _ _ _) (updateBlock_AT _ _ _) (updateBlock_FLASH _ _ _)]
    by_cases h : i / 320 = 24 + first
    · have h' : i / 320 - 24 = first := by omega
      rw [if_neg (by omega), h']
      exact if_congr (by omega) rfl rfl
    · rw [if_neg (c := i / 320 = 24 + first ∧ _) (by omega)]
      exact if_congr (by omega) rfl rfl

/-! ### The full redraw and the border patch -/

/-- A loop that draws a run of pixels at every turn keeps the background. -/
theorem foldl_background {f : PixelBuffer → Nat → PixelBuffer} (hf : ∀ pb n, (f pb n).background = pb.background)
    (ns : List Nat) (pb : PixelBuffer) : (ns.foldl f pb).background = pb.background := by
  induction ns generalizing pb with
  | nil => rfl
  | cons n ns ih => rw [List.foldl_cons, ih, hf]

/-- A loop that keeps the canonical form at every turn keeps it. -/
theorem foldl_wf {f : PixelBuffer → Nat → PixelBuffer} {ns : List Nat}
    (hf : ∀ pb : PixelBuffer, ∀ n ∈ ns, pb.wf → (f pb n).wf) {pb : PixelBuffer} (h : pb.wf) : (ns.foldl f pb).wf := by
  induction ns generalizing pb with
  | nil => exact h
  | cons n ns ih => exact ih (fun pb m hm => hf pb m (by simp [hm])) (hf pb n (by simp) h)

theorem isCanvas_iff (i : Nat) :
    isCanvas i = true ↔ (32 ≤ i % 320 ∧ i % 320 < 288 ∧ 24 ≤ i / 320 ∧ i / 320 < 216) := by
  exact decide_eq_true_iff

theorem inBorderPatch_iff (i : Nat) : inBorderPatch i = true ↔ (i % 320 < 16 ∧ i / 320 < 16) := by
  exact decide_eq_true_iff

theorem read_drawLines (s : State) (pb : PixelBuffer) (n i : Nat) :
    ((List.range n).foldl (drawLine s) pb).read i =
      if 32 ≤ i % 320 ∧ i % 320 < 288 ∧ 24 ≤ i / 320 ∧ i / 320 < 24 + n then
        s.shownPixel (i / 320 - 24) ((i % 320 - 32) / 8) ((i % 320 - 32) % 8)
      else pb.read i := by
  induction n with
  | zero => rw [if_neg (by omega)]; rfl
  | succ n ih =>
    rw [List.range_succ, List.foldl_append, List.foldl_cons, List.foldl_nil, read_drawLine, ih]
    have hb := blockStart_eq n 0
    by_cases h : 32 ≤ i % 320 ∧ i % 320 < 288 ∧ i / 320 = 24 + n
    · have h1 : i / 320 - 24 = n := by omega
      have h2 : i - blockStart n 0 = i % 320 - 32 := by omega
      rw [if_pos (by omega : blockStart n 0 ≤ i ∧ i < blockStart n 0 + 256),
        if_pos (by omega : 32 ≤ i % 320 ∧ i % 320 < 288 ∧ 24 ≤ i / 320 ∧ i / 320 < 24 + (n + 1)), h1, h2]
    · rw [if_neg (by omega : ¬ (blockStart n 0 ≤ i ∧ i < blockStart n 0 + 256))]
      exact if_congr (by omega) rfl rfl

@[simp] theorem fullRedraw_background (s : State) : (fullRedraw s).PB.background = s.PB.background := by
  rw [fullRedraw_PB, foldl_background (drawLine_background s)]

/-- R172: every canvas pixel from the grids, no border pixel. -/
theorem pixel_fullRedraw (s : State) (i : Nat) :
    (fullRedraw s).pixel i =
      if isCanvas i then s.shownPixel (i / 320 - 24) ((i % 320 - 32) / 8) ((i % 320 - 32) % 8) else s.pixel i := by
  unfold State.pixel
  rw [fullRedraw_PB, read_drawLines]
  exact if_congr (by rw [isCanvas_iff, canvasH]) rfl rfl

@[simp] theorem paintRow_background (c : Rgba) (pb : PixelBuffer) (y : Nat) :
    (paintRow c pb y).background = pb.background := rfl

theorem read_paintRow (c : Rgba) (pb : PixelBuffer) (y i : Nat) :
    (paintRow c pb y).read i = if i / 320 = y ∧ i % 320 < 16 then c else pb.read i := by
  unfold paintRow
  rw [PixelBuffer.read_writeRun, List.length_replicate]
  have hp := pixelIndex_eq 0 y
  have hs : borderPatchSide = 16 := rfl
  by_cases h : i / 320 = y ∧ i % 320 < 16
  · have hr : i - pixelIndex 0 y < (List.replicate borderPatchSide c).length := by
      rw [List.length_replicate]; omega
    rw [if_pos h, if_pos (by omega), List.getD_eq_getElem _ _ hr, List.getElem_replicate]
  · rw [if_neg h, if_neg (by omega)]

theorem read_paintRows (c : Rgba) (pb : PixelBuffer) (n i : Nat) :
    ((List.range n).foldl (paintRow c) pb).read i = if i % 320 < 16 ∧ i / 320 < n then c else pb.read i := by
  induction n with
  | zero => rw [if_neg (by omega)]; rfl
  | succ n ih =>
    rw [List.range_succ, List.foldl_append, List.foldl_cons, List.foldl_nil, read_paintRow, ih]
    by_cases h : i / 320 = n ∧ i % 320 < 16
    · rw [if_pos h, if_pos (by omega)]
    · rw [if_neg h]
      exact if_congr (by omega) rfl rfl

@[simp] theorem paintPatch_background (c : Rgba) (s : State) : (paintPatch c s).PB.background = s.PB.background := by
  rw [paintPatch_PB, foldl_background (paintRow_background c)]

/-- R173: the 256 pixels of the patch, and no other. -/
theorem pixel_paintPatch (c : Rgba) (s : State) (i : Nat) :
    (paintPatch c s).pixel i = if inBorderPatch i then c else s.pixel i := by
  unfold State.pixel
  rw [paintPatch_PB, read_paintRows]
  exact if_congr (by rw [inBorderPatch_iff, borderPatchSide]) rfl rfl

/-! ### The canonical form of the buffer -/

theorem wf_drawBlock {pb : PixelBuffer} (h : pb.wf) (s : State) {line col : Nat} (hl : line < 192) (hc : col < 32) :
    (drawBlock s pb line col).wf :=
  PixelBuffer.wf_writeRun h (by
    simp only [blockPixels_length, blockStart, pixelIndex, borderX, borderY, frameW]; omega)

theorem wf_updateBlock {s : State} (h : s.PB.wf) {line col : Nat} (hl : line < 192) (hc : col < 32) :
    (updateBlock line col s).PB.wf := wf_drawBlock h s hl hc

theorem wf_updateLines {s : State} (h : s.PB.wf) {lines : List Nat} {col : Nat} (hl : ∀ l ∈ lines, l < 192)
    (hc : col < 32) : (updateLines lines col s).PB.wf := by
  rw [updateLines_eq]
  exact foldl_wf (fun pb n hn hpb => wf_drawBlock hpb s (hl n hn) hc) h

theorem wf_fullRedraw {s : State} (h : s.PB.wf) : (fullRedraw s).PB.wf := by
  rw [fullRedraw_PB]
  refine foldl_wf (fun pb n hn hpb => PixelBuffer.wf_writeRun hpb ?_) h
  have := List.mem_range.1 hn
  simp only [canvasH] at this
  simp only [linePixels_length, blockStart, pixelIndex, borderX, borderY, frameW]
  omega

theorem wf_paintPatch {s : State} (h : s.PB.wf) (c : Rgba) : (paintPatch c s).PB.wf := by
  rw [paintPatch_PB]
  refine foldl_wf (fun pb n hn hpb => PixelBuffer.wf_writeRun hpb ?_) h
  have := List.mem_range.1 hn
  simp only [borderPatchSide] at this
  simp only [List.length_replicate, pixelIndex, frameW, borderPatchSide]
  omega

/-! ### The buffer as bytes -/

theorem flatMap_four_getElem? {f : Nat → List Byte} (hf : ∀ i, (f i).length = 4) (start n i k : Nat) (hi : i < n)
    (hk : k < 4) : ((List.range' start n).flatMap f)[4 * i + k]? = (f (start + i))[k]? := by
  induction n generalizing start i with
  | zero => omega
  | succ n ih =>
    rw [List.range'_succ, List.flatMap_cons]
    cases i with
    | zero => rw [List.getElem?_append_left (by rw [hf]; omega)]; simp
    | succ i =>
      rw [List.getElem?_append_right (by rw [hf]; omega), hf]
      have h1 : 4 * (i + 1) + k - 4 = 4 * i + k := by omega
      have h2 : start + 1 + i = start + (i + 1) := by omega
      rw [h1, ih (start + 1) i (by omega), h2]

theorem bytes_getElem? (pb : PixelBuffer) {i k : Nat} (hi : i < 76800) (hk : k < 4) :
    pb.bytes[4 * i + k]? = (rgbaBytes (pb.read i))[k]? := by
  unfold PixelBuffer.bytes pixelCount
  rw [flatMap_four_getElem? (fun _ => rfl) 0 76800 i k hi hk, Nat.zero_add]

theorem bytes_length (pb : PixelBuffer) : pb.bytes.length = 307200 := by
  have h : ∀ start n, ((List.range' start n).flatMap fun i => rgbaBytes (pb.read i)).length = 4 * n := by
    intro start n
    simp [List.length_flatMap, rgbaBytes, Nat.mul_comm]
  exact h 0 76800

/-! ### States in canonical form -/

/-- Two buffers in canonical form over one background that read alike are equal. -/
theorem PixelBuffer.ext_of_wf {p q : PixelBuffer} (hp : p.wf) (hq : q.wf) (hb : p.background = q.background)
    (h : ∀ i, p.read i = q.read i) : p = q := by
  obtain ⟨b, xs⟩ := p
  obtain ⟨b', ys⟩ := q
  cases hb
  exact congrArg (PixelBuffer.mk b) (canonical_ext hp hq h)

end Sys2Proof.Machine
end

