-- ==== Sys2Proof/Laws/Exec.lean ====
section
/-! SUPPORT. What each operation does, said once: the fault gate, the two accepted writes field by field and pixel by
pixel, and the inversion lemma of `exec`, which lists every way an operation can answer a next state. -/

namespace Sys2Proof.Machine

/-! ### The fault gate -/

theorem gated_of_none {s : State} (h : s.FAULT = none) (op : State → Host.Outcome State Fault Refusal) :
    gated s op = op s := by unfold gated; rw [h]

theorem gated_of_some {s : State} {v : Violation} (h : s.FAULT = some v)
    (op : State → Host.Outcome State Fault Refusal) : gated s op = .fault (.halted v) := by unfold gated; rw [h]

/-- An operation behind the gate that answers a next state ran in a state without a fault. -/
theorem gated_next {s t : State} {op : State → Host.Outcome State Fault Refusal} (h : gated s op = .next t) :
    s.FAULT = none ∧ op s = .next t := by
  cases hf : s.FAULT with
  | none => rw [gated_of_none hf] at h; exact ⟨rfl, h⟩
  | some v => rw [gated_of_some hf] at h; cases h

/-! ### The accepted bitmap write -/

section bitmapWritten
variable (a : Addr) (clock : Nat) (d : Byte) (s : State)

@[simp] theorem bitmapWritten_BM : (bitmapWritten a clock d s).BM = s.BM.write (gridIndex (bitmapRowFromAddress a).toNat (bitmapColumnFromAddress a).toNat) d := by
  unfold bitmapWritten; simp only; split <;> rfl

@[simp] theorem bitmapWritten_AT : (bitmapWritten a clock d s).AT = s.AT := by
  unfold bitmapWritten; simp only; split <;> rfl

@[simp] theorem bitmapWritten_FLASH : (bitmapWritten a clock d s).FLASH = s.FLASH := by
  unfold bitmapWritten; simp only; split <;> rfl

@[simp] theorem bitmapWritten_FC : (bitmapWritten a clock d s).FC = s.FC := by
  unfold bitmapWritten; simp only; split <;> rfl

@[simp] theorem bitmapWritten_FAULT : (bitmapWritten a clock d s).FAULT = s.FAULT := by
  unfold bitmapWritten; simp only; split <;> rfl

@[simp] theorem bitmapWritten_CFP : (bitmapWritten a clock d s).CFP = s.CFP := by
  unfold bitmapWritten; simp only; split <;> rfl

@[simp] theorem bitmapWritten_CL : (bitmapWritten a clock d s).CL = s.CL := by
  unfold bitmapWritten; simp only; split <;> rfl

@[simp] theorem bitmapWritten_pending : (bitmapWritten a clock d s).pending = s.pending := by
  unfold bitmapWritten; simp only; split <;> rfl

@[simp] theorem bitmapWritten_result : (bitmapWritten a clock d s).result = s.result := by
  unfold bitmapWritten; simp only; split <;> rfl

@[simp] theorem bitmapWritten_background : (bitmapWritten a clock d s).PB.background = s.PB.background := by
  unfold bitmapWritten; simp only; split <;> rfl

theorem bitmapWritten_eq_of_caught (h : bitmapCaught s.CFP s.CL clock (bitmapRowFromAddress a).toNat
      (bitmapColumnFromAddress a).toNat = true) :
    bitmapWritten a clock d s = updateBlock (bitmapRowFromAddress a).toNat (bitmapColumnFromAddress a).toNat
      (s.storeBitmap (bitmapRowFromAddress a).toNat (bitmapColumnFromAddress a).toNat d) := if_pos h

theorem bitmapWritten_eq_of_late (h : ¬ bitmapCaught s.CFP s.CL clock (bitmapRowFromAddress a).toNat
      (bitmapColumnFromAddress a).toNat = true) :
    bitmapWritten a clock d s =
      s.storeBitmap (bitmapRowFromAddress a).toNat (bitmapColumnFromAddress a).toNat d := if_neg h

end bitmapWritten

/-- R175: the block's pixels when caught, and no other. -/
theorem pixel_bitmapWritten (a : Addr) (clock : Nat) (d : Byte) (s : State) (i : Nat) :
    (bitmapWritten a clock d s).pixel i =
      if bitmapCaught s.CFP s.CL clock (bitmapRowFromAddress a).toNat (bitmapColumnFromAddress a).toNat = true ∧
          i / 320 = 24 + (bitmapRowFromAddress a).toNat ∧ 32 + 8 * (bitmapColumnFromAddress a).toNat ≤ i % 320 ∧
          i % 320 < 40 + 8 * (bitmapColumnFromAddress a).toNat then
        paletteRgba (attributeFromByte (s.attrAt ((bitmapRowFromAddress a).toNat / 8)
          (bitmapColumnFromAddress a).toNat)) (d.getLsbD (7 - (i % 320 - 32) % 8)) s.FLASH
      else s.pixel i := by
  have hc := bitmapColumn_lt a
  by_cases h : bitmapCaught s.CFP s.CL clock (bitmapRowFromAddress a).toNat (bitmapColumnFromAddress a).toNat = true
  · rw [bitmapWritten_eq_of_caught a clock d s h, pixel_updateBlock _ hc]
    refine if_congr (by simp [h]) ?_ (pixel_storeBitmap _ _ _ _ _)
    unfold State.shownPixel
    rw [attrAt_storeBitmap, bitmapAt_storeBitmap s d hc hc, if_pos ⟨rfl, rfl⟩, storeBitmap_FLASH]
  · rw [bitmapWritten_eq_of_late a clock d s h, pixel_storeBitmap, if_neg (by simp [h])]

/-! ### The accepted attribute write -/

section attrWritten
variable (a : Addr) (clock : Nat) (v : Byte) (s : State)

theorem attrWritten_eq_of_caught (h : attrCaught s.CFP s.CL clock (attrRowFromAddress a)
      (attrColumnFromAddress a).toNat = true) :
    attrWritten a clock v s = updateLines (attrRedrawLines s.CFP s.CL clock (attrRowFromAddress a)
      (attrColumnFromAddress a).toNat) (attrColumnFromAddress a).toNat
      (s.storeAttr (attrRowFromAddress a) (attrColumnFromAddress a).toNat v) := if_pos h

theorem attrWritten_eq_of_late (h : ¬ attrCaught s.CFP s.CL clock (attrRowFromAddress a)
      (attrColumnFromAddress a).toNat = true) :
    attrWritten a clock v s = s.storeAttr (attrRowFromAddress a) (attrColumnFromAddress a).toNat v := if_neg h

@[simp] theorem attrWritten_BM : (attrWritten a clock v s).BM = s.BM := by
  by_cases h : attrCaught s.CFP s.CL clock (attrRowFromAddress a) (attrColumnFromAddress a).toNat = true
  · rw [attrWritten_eq_of_caught a clock v s h]; simp
  · rw [attrWritten_eq_of_late a clock v s h]; simp

@[simp] theorem attrWritten_AT : (attrWritten a clock v s).AT = s.AT.write (gridIndex (attrRowFromAddress a) (attrColumnFromAddress a).toNat) v := by
  by_cases h : attrCaught s.CFP s.CL clock (attrRowFromAddress a) (attrColumnFromAddress a).toNat = true
  · rw [attrWritten_eq_of_caught a clock v s h]; simp
  · rw [attrWritten_eq_of_late a clock v s h]; simp

@[simp] theorem attrWritten_FLASH : (attrWritten a clock v s).FLASH = s.FLASH := by
  by_cases h : attrCaught s.CFP s.CL clock (attrRowFromAddress a) (attrColumnFromAddress a).toNat = true
  · rw [attrWritten_eq_of_caught a clock v s h]; simp
  · rw [attrWritten_eq_of_late a clock v s h]; simp

@[simp] theorem attrWritten_FC : (attrWritten a clock v s).FC = s.FC := by
  by_cases h : attrCaught s.CFP s.CL clock (attrRowFromAddress a) (attrColumnFromAddress a).toNat = true
  · rw [attrWritten_eq_of_caught a clock v s h]; simp
  · rw [attrWritten_eq_of_late a clock v s h]; simp

@[simp] theorem attrWritten_FAULT : (attrWritten a clock v s).FAULT = s.FAULT := by
  by_cases h : attrCaught s.CFP s.CL clock (attrRowFromAddress a) (attrColumnFromAddress a).toNat = true
  · rw [attrWritten_eq_of_caught a clock v s h]; simp
  · rw [attrWritten_eq_of_late a clock v s h]; simp

@[simp] theorem attrWritten_CFP : (attrWritten a clock v s).CFP = s.CFP := by
  by_cases h : attrCaught s.CFP s.CL clock (attrRowFromAddress a) (attrColumnFromAddress a).toNat = true
  · rw [attrWritten_eq_of_caught a clock v s h]; simp
  · rw [attrWritten_eq_of_late a clock v s h]; simp

@[simp] theorem attrWritten_CL : (attrWritten a clock v s).CL = s.CL := by
  by_cases h : attrCaught s.CFP s.CL clock (attrRowFromAddress a) (attrColumnFromAddress a).toNat = true
  · rw [attrWritten_eq_of_caught a clock v s h]; simp
  · rw [attrWritten_eq_of_late a clock v s h]; simp

@[simp] theorem attrWritten_pending : (attrWritten a clock v s).pending = s.pending := by
  by_cases h : attrCaught s.CFP s.CL clock (attrRowFromAddress a) (attrColumnFromAddress a).toNat = true
  · rw [attrWritten_eq_of_caught a clock v s h]; simp
  · rw [attrWritten_eq_of_late a clock v s h]; simp

@[simp] theorem attrWritten_result : (attrWritten a clock v s).result = s.result := by
  by_cases h : attrCaught s.CFP s.CL clock (attrRowFromAddress a) (attrColumnFromAddress a).toNat = true
  · rw [attrWritten_eq_of_caught a clock v s h]; simp
  · rw [attrWritten_eq_of_late a clock v s h]; simp

@[simp] theorem attrWritten_background : (attrWritten a clock v s).PB.background = s.PB.background := by
  by_cases h : attrCaught s.CFP s.CL clock (attrRowFromAddress a) (attrColumnFromAddress a).toNat = true
  · rw [attrWritten_eq_of_caught a clock v s h]; simp
  · rw [attrWritten_eq_of_late a clock v s h]; simp

end attrWritten

/-- R176: the pixels of the lines from the beam's on, when caught, and no other. -/
theorem pixel_attrWritten (a : Addr) (clock : Nat) (v : Byte) (s : State) (i : Nat) :
    (attrWritten a clock v s).pixel i =
      if attrCaught s.CFP s.CL clock (attrRowFromAddress a) (attrColumnFromAddress a).toNat = true ∧
          24 + (attrRowFromAddress a * 8 + beamLine s.CFP s.CL clock (attrColumnFromAddress a).toNat % 8) ≤ i / 320 ∧
          i / 320 < 24 + (attrRowFromAddress a + 1) * 8 ∧
          32 + 8 * (attrColumnFromAddress a).toNat ≤ i % 320 ∧ i % 320 < 40 + 8 * (attrColumnFromAddress a).toNat then
        paletteRgba (attributeFromByte v) ((s.bitmapAt (i / 320 - 24) (attrColumnFromAddress a).toNat).getLsbD
          (7 - (i % 320 - 32) % 8)) s.FLASH
      else s.pixel i := by
  have hc := attrColumn_lt a
  by_cases h : attrCaught s.CFP s.CL clock (attrRowFromAddress a) (attrColumnFromAddress a).toNat = true
  · rw [attrWritten_eq_of_caught a clock v s h, attrRedrawLines_eq, pixel_updateLines _ hc, pixel_storeAttr]
    have hb : beamLine s.CFP s.CL clock (attrColumnFromAddress a).toNat % 8 < 8 := Nat.mod_lt _ (by decide)
    by_cases hi : 24 + (attrRowFromAddress a * 8 + beamLine s.CFP s.CL clock (attrColumnFromAddress a).toNat % 8)
        ≤ i / 320 ∧ i / 320 < 24 + (attrRowFromAddress a + 1) * 8 ∧
        32 + 8 * (attrColumnFromAddress a).toNat ≤ i % 320 ∧ i % 320 < 40 + 8 * (attrColumnFromAddress a).toNat
    · rw [if_pos (c := attrCaught _ _ _ _ _ = true ∧ _) ⟨h, hi⟩, if_pos (by omega)]
      unfold State.shownPixel
      have hrow : (i / 320 - 24) / 8 = attrRowFromAddress a := by omega
      rw [bitmapAt_storeAttr, hrow, attrAt_storeAttr s v hc hc, if_pos ⟨rfl, rfl⟩, storeAttr_FLASH]
    · rw [if_neg (c := attrCaught _ _ _ _ _ = true ∧ _) (fun hh => hi hh.2), if_neg (by omega)]
  · rw [attrWritten_eq_of_late a clock v s h, pixel_storeAttr, if_neg (fun hh => h hh.1)]

/-! ### The accepted writes keep the buffer's canonical form -/

theorem wf_bitmapWritten {s : State} (h : s.PB.wf) {a : Addr} (ha : inBitmapRegion a = true) (clock : Nat) (d : Byte) :
    (bitmapWritten a clock d s).PB.wf := by
  by_cases hc : bitmapCaught s.CFP s.CL clock (bitmapRowFromAddress a).toNat (bitmapColumnFromAddress a).toNat = true
  · rw [bitmapWritten_eq_of_caught a clock d s hc]
    exact wf_updateBlock (by rw [storeBitmap_PB]; exact h) (bitmapRow_lt ha) (bitmapColumn_lt a)
  · rw [bitmapWritten_eq_of_late a clock d s hc, storeBitmap_PB]; exact h

theorem wf_attrWritten {s : State} (h : s.PB.wf) {a : Addr} (ha : inAttrRegion a = true) (clock : Nat) (v : Byte) :
    (attrWritten a clock v s).PB.wf := by
  by_cases hc : attrCaught s.CFP s.CL clock (attrRowFromAddress a) (attrColumnFromAddress a).toNat = true
  · rw [attrWritten_eq_of_caught a clock v s hc]
    refine wf_updateLines (by rw [storeAttr_PB]; exact h) (fun l hl => ?_) (attrColumn_lt a)
    have := attrRow_lt ha
    rw [mem_attrRedrawLines] at hl
    omega
  · rw [attrWritten_eq_of_late a clock v s hc, storeAttr_PB]; exact h

/-! ### Each operation's outcome -/

theorem lt_attrBase_iff (a : Addr) : a < attrBase ↔ a.toNat < 0x5800 := BitVec.lt_def

theorem exec_attrRowFromAddress (a : Addr) (s : State) :
    exec (.attrRowFromAddress a) s = if a < attrBase then .refused (.belowAttrBase a)
      else .next (s.respond (.attrRow (attrRowFromAddress a))) := rfl

theorem exec_attrColumnFromAddress (a : Addr) (s : State) :
    exec (.attrColumnFromAddress a) s = if a < attrBase then .refused (.belowAttrBase a)
      else .next (s.respond (.column (attrColumnFromAddress a))) := rfl

theorem exec_colorFromBits_fault {bits : BitVec 8} (h : 7 < bits.toNat) (s : State) :
    exec (.colorFromBits bits) s = .next (s.raise (.colorCode bits)) := by
  show execColorFromBits bits s = _
  unfold execColorFromBits colorFromBits
  rw [if_pos h]

theorem exec_colorFromBits {bits : BitVec 8} (h : ¬ 7 < bits.toNat) (s : State) :
    exec (.colorFromBits bits) s = .next (s.respond (.color (colorOfCode (bits.extractLsb' 0 3)))) := by
  show execColorFromBits bits s = _
  unfold execColorFromBits colorFromBits
  rw [if_neg h]

theorem exec_setBorder {s : State} (h : s.FAULT = none) (c : Byte) (clock : Nat) :
    exec (.setBorder c clock) s =
      .next ((paintPatch (paletteRgba (attributeFromByte c) true false) s).respond .none) := by
  show execSetBorder c clock s = _
  unfold execSetBorder
  rw [gated_of_none h]

theorem exec_newFrame {s : State} (h : s.FAULT = none) :
    exec .newFrame s = .next ((fullRedraw (advanceFrame s)).respond .none) := by
  show execNewFrame s = _
  unfold execNewFrame
  rw [gated_of_none h]

theorem exec_writeBitmapByte {s : State} (h : s.FAULT = none) {a : Addr} (ha : inBitmapRegion a = true)
    (clock : Nat) (d : Byte) :
    exec (.writeBitmapByte a clock d) s = .next ((bitmapWritten a clock d s).respond .none) := by
  show execWriteBitmapByte a clock d s = _
  unfold execWriteBitmapByte
  rw [gated_of_none h, if_pos ha]

theorem exec_writeBitmapByte_fault {s : State} (h : s.FAULT = none) {a : Addr} (ha : ¬ inBitmapRegion a = true)
    (clock : Nat) (d : Byte) : exec (.writeBitmapByte a clock d) s = .next (s.raise (.bitmapAddress a)) := by
  show execWriteBitmapByte a clock d s = _
  unfold execWriteBitmapByte
  rw [gated_of_none h, if_neg ha]

theorem exec_writeAttrByte {s : State} (h : s.FAULT = none) {a : Addr} (ha : inAttrRegion a = true)
    (clock : Nat) (v : Byte) :
    exec (.writeAttrByte a clock v) s = .next ((attrWritten a clock v s).respond .none) := by
  show execWriteAttrByte a clock v s = _
  unfold execWriteAttrByte
  rw [gated_of_none h, if_pos ha]

theorem exec_writeAttrByte_fault {s : State} (h : s.FAULT = none) {a : Addr} (ha : ¬ inAttrRegion a = true)
    (clock : Nat) (v : Byte) : exec (.writeAttrByte a clock v) s = .next (s.raise (.attrAddress a)) := by
  show execWriteAttrByte a clock v s = _
  unfold execWriteAttrByte
  rw [gated_of_none h, if_neg ha]

theorem exec_cloneTexture {s : State} (h : s.FAULT = none) :
    exec .cloneTexture s = .next (s.respond (.buffer s.PB.bytes)) := by
  show execCloneTexture s = _
  unfold execCloneTexture
  rw [gated_of_none h]

/-- The operations behind the fault gate, in a halted block. -/
theorem exec_of_halted {s : State} {v : Violation} (h : s.FAULT = some v) (a : Addr) (clock : Nat) (d : Byte) :
    exec (.setBorder d clock) s = .fault (.halted v) ∧ exec .newFrame s = .fault (.halted v) ∧
    exec (.writeBitmapByte a clock d) s = .fault (.halted v) ∧
    exec (.writeAttrByte a clock d) s = .fault (.halted v) ∧ exec .cloneTexture s = .fault (.halted v) := by
  refine ⟨?_, ?_, ?_, ?_, ?_⟩
  · show execSetBorder d clock s = _
    unfold execSetBorder; rw [gated_of_some h]
  · show execNewFrame s = _
    unfold execNewFrame; rw [gated_of_some h]
  · show execWriteBitmapByte a clock d s = _
    unfold execWriteBitmapByte; rw [gated_of_some h]
  · show execWriteAttrByte a clock d s = _
    unfold execWriteAttrByte; rw [gated_of_some h]
  · show execCloneTexture s = _
    unfold execCloneTexture; rw [gated_of_some h]

/-- A renderer operation that answers a next state ran in a state without a fault. -/
theorem fault_none_of_next {i : Instr} {s t : State} (h : exec i s = .next t)
    (hi : ∀ v, s.FAULT = some v → exec i s = .fault (.halted v)) : s.FAULT = none := by
  cases hf : s.FAULT with
  | none => rfl
  | some v => rw [hi v hf] at h; cases h

theorem violationOf_writeBitmapByte {a : Addr} (ha : ¬ inBitmapRegion a = true) (clock : Nat) (d : Byte) :
    violationOf (.writeBitmapByte a clock d) = some (.bitmapAddress a) := by
  rw [inBitmapRegion_iff] at ha
  exact if_pos (by omega)

theorem violationOf_writeAttrByte {a : Addr} (ha : ¬ inAttrRegion a = true) (clock : Nat) (d : Byte) :
    violationOf (.writeAttrByte a clock d) = some (.attrAddress a) := by
  rw [inAttrRegion_iff] at ha
  exact if_pos (by omega)

theorem violationOf_writeBitmapByte_none {a : Addr} (ha : inBitmapRegion a = true) (clock : Nat) (d : Byte) :
    violationOf (.writeBitmapByte a clock d) = none := by
  rw [inBitmapRegion_iff] at ha
  exact if_neg (by omega)

theorem violationOf_writeAttrByte_none {a : Addr} (ha : inAttrRegion a = true) (clock : Nat) (d : Byte) :
    violationOf (.writeAttrByte a clock d) = none := by
  rw [inAttrRegion_iff] at ha
  exact if_neg (by omega)

/-- Every way `exec` can answer a next state: a result on the port and nothing else; a contract violation latched; or,
in a state without a fault, one of the four operations that change the grids, the buffer or the counters. -/
theorem exec_next_cases {i : Instr} {s t : State} (h : exec i s = .next t) :
    (violationOf i = none ∧ ∃ r, t = s.respond r) ∨
    (∃ v, violationOf i = some v ∧ t = s.raise v) ∨
    (s.FAULT = none ∧ violationOf i = none ∧
      ((∃ c k, i = .setBorder c k ∧
          t = (paintPatch (paletteRgba (attributeFromByte c) true false) s).respond .none) ∨
       (i = .newFrame ∧ t = (fullRedraw (advanceFrame s)).respond .none) ∨
       (∃ a k d, i = .writeBitmapByte a k d ∧ inBitmapRegion a = true ∧
          t = (bitmapWritten a k d s).respond .none) ∨
       (∃ a k v, i = .writeAttrByte a k v ∧ inAttrRegion a = true ∧
          t = (attrWritten a k v s).respond .none))) := by
  cases i with
  | bitmapLineAddress l => cases h; exact .inl ⟨rfl, _, rfl⟩
  | bitmapRowFromAddress a => cases h; exact .inl ⟨rfl, _, rfl⟩
  | bitmapColumnFromAddress a => cases h; exact .inl ⟨rfl, _, rfl⟩
  | attrRowFromAddress a =>
    change execAttrRowFromAddress a s = _ at h
    unfold execAttrRowFromAddress at h
    split at h
    · cases h
    · injection h with h
      exact .inl ⟨rfl, _, h.symm⟩
  | attrColumnFromAddress a =>
    change execAttrColumnFromAddress a s = _ at h
    unfold execAttrColumnFromAddress at h
    split at h
    · cases h
    · injection h with h
      exact .inl ⟨rfl, _, h.symm⟩
  | colorFromBits b =>
    change execColorFromBits b s = _ at h
    unfold execColorFromBits colorFromBits at h
    by_cases hb : 7 < b.toNat
    · rw [if_pos hb] at h
      injection h with h
      exact .inr (.inl ⟨_, if_pos hb, h.symm⟩)
    · rw [if_neg hb] at h
      injection h with h
      exact .inl ⟨if_neg hb, _, h.symm⟩
  | attributeFromByte b => cases h; exact .inl ⟨rfl, _, rfl⟩
  | paletteRgba b p f => cases h; exact .inl ⟨rfl, _, rfl⟩
  | setBorder c k =>
    have hf := fault_none_of_next h fun _ hf => (exec_of_halted hf 0 k c).1
    rw [exec_setBorder hf] at h
    injection h with h
    exact .inr (.inr ⟨hf, rfl, .inl ⟨c, k, rfl, h.symm⟩⟩)
  | newFrame =>
    have hf := fault_none_of_next h fun _ hf => (exec_of_halted hf 0 0 0).2.1
    rw [exec_newFrame hf] at h
    injection h with h
    exact .inr (.inr ⟨hf, rfl, .inr (.inl ⟨rfl, h.symm⟩)⟩)
  | writeBitmapByte a k d =>
    have hf := fault_none_of_next h fun _ hf => (exec_of_halted hf a k d).2.2.1
    by_cases ha : inBitmapRegion a = true
    · rw [exec_writeBitmapByte hf ha] at h
      injection h with h
      exact
        .inr (.inr ⟨hf, violationOf_writeBitmapByte_none ha k d, .inr (.inr (.inl ⟨a, k, d, rfl, ha, h.symm⟩))⟩)
    · rw [exec_writeBitmapByte_fault hf ha] at h
      injection h with h
      exact .inr (.inl ⟨_, violationOf_writeBitmapByte ha k d, h.symm⟩)
  | writeAttrByte a k v =>
    have hf := fault_none_of_next h fun _ hf => (exec_of_halted hf a k v).2.2.2.1
    by_cases ha : inAttrRegion a = true
    · rw [exec_writeAttrByte hf ha] at h
      injection h with h
      exact
        .inr (.inr ⟨hf, violationOf_writeAttrByte_none ha k v, .inr (.inr (.inr ⟨a, k, v, rfl, ha, h.symm⟩))⟩)
    · rw [exec_writeAttrByte_fault hf ha] at h
      injection h with h
      exact .inr (.inl ⟨_, violationOf_writeAttrByte ha k v, h.symm⟩)
  | cloneTexture =>
    have hf := fault_none_of_next h fun _ hf => (exec_of_halted hf 0 0 0).2.2.2.2
    rw [exec_cloneTexture hf] at h
    injection h with h
    exact .inl ⟨rfl, _, h.symm⟩

/-- In a state without a fault, the latch after an operation records exactly its contract violation. -/
theorem FAULT_of_exec {i : Instr} {s t : State} (hf : s.FAULT = none) (h : exec i s = .next t) :
    t.FAULT = violationOf i := by
  rcases exec_next_cases h with ⟨hv, r, rfl⟩ | ⟨v, hv, rfl⟩ | ⟨-, hv, h⟩
  · rw [hv, respond_FAULT, hf]
  · rw [hv, raise_FAULT, hf]; rfl
  · rw [hv]
    rcases h with ⟨c, k, -, rfl⟩ | ⟨-, rfl⟩ | ⟨a, k, d, -, -, rfl⟩ | ⟨a, k, d, -, -, rfl⟩ <;> simp [hf]

/-! ### The step -/

theorem step_nil {s : State} (h : s.pending = []) : step s = gated s .next := by unfold step; rw [h]; rfl

theorem step_cons_ok {s : State} {t : Transaction} {rest : List Transaction} {i : Instr}
    (h : s.pending = t :: rest) (hd : decode t = .ok i) : step s = exec i { s with pending := rest } := by
  unfold step; rw [h]; simp only; rw [hd]

theorem step_cons_error {s : State} {t : Transaction} {rest : List Transaction} {op : BitVec 4}
    (h : s.pending = t :: rest) (hd : decode t = .error (.reservedSelect op)) :
    step s = .refused (.reservedSelect op) := by
  unfold step; rw [h]; simp only; rw [hd]

/-- Every way `step` can answer a next state: the idle block, or the operation presented. -/
theorem step_next_cases {s t : State} (h : step s = .next t) :
    (s.pending = [] ∧ s.FAULT = none ∧ t = s) ∨
    (∃ tr rest i, s.pending = tr :: rest ∧ decode tr = .ok i ∧ exec i { s with pending := rest } = .next t) := by
  cases hp : s.pending with
  | nil =>
    rw [step_nil hp] at h
    obtain ⟨hf, h⟩ := gated_next h
    cases h
    exact .inl ⟨rfl, hf, rfl⟩
  | cons tr rest =>
    cases hd : decode tr with
    | ok i =>
      rw [step_cons_ok hp hd] at h
      exact .inr ⟨tr, rest, i, rfl, hd, h⟩
    | error r =>
      cases r
      rw [step_cons_error hp hd] at h
      cases h

/-! ### Runs -/

@[simp] theorem perform_nil (s : State) : perform [] s = .next s := rfl

theorem perform_cons_of_next {i : Instr} {s t : State} (h : exec i s = .next t) (is : List Instr) :
    perform (i :: is) s = perform is t := by
  rw [perform]; rw [h]

/-- A run that completes performed its first operation and then the rest. -/
theorem perform_cons_next {i : Instr} {is : List Instr} {s t : State} (h : perform (i :: is) s = .next t) :
    ∃ u, exec i s = .next u ∧ perform is u = .next t := by
  rw [perform] at h
  cases he : exec i s with
  | next u => rw [he] at h; exact ⟨u, rfl, h⟩
  | fault r => rw [he] at h; cases h
  | refused r => rw [he] at h; cases h

@[simp] theorem flashChanges_nil (s : State) : flashChanges [] s = 0 := rfl

theorem flashChanges_cons_of_next {i : Instr} {s t : State} (h : exec i s = .next t) (is : List Instr) :
    flashChanges (i :: is) s = (if t.FLASH = s.FLASH then 0 else 1) + flashChanges is t := by
  rw [flashChanges]; rw [h]

end Sys2Proof.Machine
end

