-- ==== Sys2Proof/Laws/PerInstr.lean ====
section
/-! SUPPORT. One family of facts about every operation as syntax, one lemma per constructor: the transaction that
encodes it carries the select code of its row of the opcode table, and the row's word decodes to that row's
operation. -/

namespace Sys2Proof.Laws.SelectRow

/-- The encoded transaction carries the row's code, the code is not reserved, and the row's word, with no bits for the
operands, decodes to the same row (30_encoding.md R80, R89). -/
def Statement (i : Instr) : Prop :=
  (encode i).op = i.selectCode ∧ i.selectCode.toNat ≤ 0xC ∧
    (decodeTableWord 8 i.selectCode.toNat).map Instr.selectCode = some i.selectCode

theorem bitmapLineAddress (line : BitVec 8) : Statement (.bitmapLineAddress line) := ⟨rfl, Nat.le_of_ble_eq_true rfl, rfl⟩
theorem bitmapRowFromAddress (a : Addr) : Statement (.bitmapRowFromAddress a) := ⟨rfl, Nat.le_of_ble_eq_true rfl, rfl⟩
theorem bitmapColumnFromAddress (a : Addr) : Statement (.bitmapColumnFromAddress a) := ⟨rfl, Nat.le_of_ble_eq_true rfl, rfl⟩
theorem attrRowFromAddress (a : Addr) : Statement (.attrRowFromAddress a) := ⟨rfl, Nat.le_of_ble_eq_true rfl, rfl⟩
theorem attrColumnFromAddress (a : Addr) : Statement (.attrColumnFromAddress a) := ⟨rfl, Nat.le_of_ble_eq_true rfl, rfl⟩
theorem colorFromBits (bits : BitVec 8) : Statement (.colorFromBits bits) := ⟨rfl, Nat.le_of_ble_eq_true rfl, rfl⟩
theorem attributeFromByte (b : Byte) : Statement (.attributeFromByte b) := ⟨rfl, Nat.le_of_ble_eq_true rfl, rfl⟩
theorem paletteRgba (b : Byte) (p f : Bool) : Statement (.paletteRgba b p f) := ⟨rfl, Nat.le_of_ble_eq_true rfl, rfl⟩
theorem setBorder (c : Byte) (clock : Nat) : Statement (.setBorder c clock) := ⟨rfl, Nat.le_of_ble_eq_true rfl, rfl⟩
theorem newFrame : Statement .newFrame := ⟨rfl, Nat.le_of_ble_eq_true rfl, rfl⟩
theorem writeBitmapByte (a : Addr) (clock : Nat) (d : Byte) : Statement (.writeBitmapByte a clock d) :=
  ⟨rfl, Nat.le_of_ble_eq_true rfl, rfl⟩
theorem writeAttrByte (a : Addr) (clock : Nat) (v : Byte) : Statement (.writeAttrByte a clock v) :=
  ⟨rfl, Nat.le_of_ble_eq_true rfl, rfl⟩
theorem cloneTexture : Statement .cloneTexture := ⟨rfl, Nat.le_of_ble_eq_true rfl, rfl⟩

end Sys2Proof.Laws.SelectRow
end

