-- ==== Sys2Proof/Tests/Slice0.lean ====
section
/-! SUPPORT. Tests and witnesses. Expected values are from spec/95_test_vectors.md (V1 to V8, P1 to P6) and the worked
examples of the rules; a witness shows values that meet an obligation's hypotheses, at the edges of their ranges. -/

namespace Sys2Proof.Tests

open Sys2Proof Sys2Proof.Machine

/-- Parameter set A (95_test_vectors.md). -/
def setA : State := State.construct 14336 224 ⟨0, 0, 0, 255⟩

/-- Parameter set B (95_test_vectors.md). -/
def setB : State := State.construct 100 50 ⟨0, 0, 0, 255⟩

/-- Set A with a latched fault. -/
def halted : State := { setA with FAULT := some (.bitmapAddress 0x5800) }

/-- The state an operation leads to, if it answers one. -/
def after (i : Instr) (s : State) : Option State :=
  match exec i s with
  | .next t => some t
  | .fault _ => none
  | .refused _ => none

/-- The result port after an operation. -/
def answer (i : Instr) (s : State) : Option Result := (after i s).map State.result

/-- Some pixels after an operation. -/
def pixels (i : Instr) (s : State) (ps : List Nat) : Option (List Rgba) := (after i s).map fun t => ps.map t.pixel

/-- Nothing of the operation's outcome but a refusal. -/
def refusal (i : Instr) (s : State) : Option Refusal :=
  match exec i s with
  | .next _ => none
  | .fault _ => none
  | .refused r => some r

/-! ### WellFormed refuses -/

theorem test_wellFormed_line : (Instr.bitmapLineAddress 192).wellFormed = false := by decide
theorem test_wellFormed_line_last : (Instr.bitmapLineAddress 191).wellFormed = true := by decide
theorem test_wellFormed_row_low : (Instr.bitmapRowFromAddress 0x3FFF).wellFormed = false := by decide
theorem test_wellFormed_row_high : (Instr.bitmapRowFromAddress 0x5800).wellFormed = false := by decide
theorem test_wellFormed_column : (Instr.bitmapColumnFromAddress 0x5800).wellFormed = false := by decide
theorem test_wellFormed_attrRow_low : (Instr.attrRowFromAddress 0x57FF).wellFormed = false := by decide
theorem test_wellFormed_attrRow_high : (Instr.attrRowFromAddress 0x5B00).wellFormed = false := by decide
theorem test_wellFormed_attrColumn : (Instr.attrColumnFromAddress 0x5B00).wellFormed = false := by decide
theorem test_wellFormed_bits : (Instr.colorFromBits 8).wellFormed = false := by decide
theorem test_wellFormed_writeBitmap : (Instr.writeBitmapByte 0x5800 0 0).wellFormed = false := by decide
theorem test_wellFormed_writeAttr : (Instr.writeAttrByte 0x57FF 0 0).wellFormed = false := by decide

/-! ### Decoding, each select code bit by bit (30_encoding.md R80; the encodings of 95_test_vectors.md P1 to P6) -/

theorem test_decode_bitmapLineAddress :
    decode { op := 0b0000#4, line := 0b01100100#8 } = .ok (.bitmapLineAddress 100) := rfl
theorem test_decode_bitmapRowFromAddress :
    decode { op := 0b0001#4, address := 0b0100101010111100#16 } = .ok (.bitmapRowFromAddress 0x4ABC) := rfl
theorem test_decode_bitmapColumnFromAddress :
    decode { op := 0b0010#4, address := 0b0100101010111100#16 } = .ok (.bitmapColumnFromAddress 0x4ABC) := rfl
theorem test_decode_attrRowFromAddress :
    decode { op := 0b0011#4, address := 0b0101101000110111#16 } = .ok (.attrRowFromAddress 0x5A37) := rfl
theorem test_decode_attrColumnFromAddress :
    decode { op := 0b0100#4, address := 0b0101101000110111#16 } = .ok (.attrColumnFromAddress 0x5A37) := rfl
theorem test_decode_colorFromBits :
    decode { op := 0b0101#4, bits := 0b00000111#8 } = .ok (.colorFromBits 7) := rfl
theorem test_decode_attributeFromByte :
    decode { op := 0b0110#4, byte := 0b01000111#8 } = .ok (.attributeFromByte 0x47) := rfl
theorem test_decode_paletteRgba :
    decode { op := 0b0111#4, attr := 0b11000010#8, pixelState := true, flashPhase := false } =
      .ok (.paletteRgba 0xC2 true false) := rfl
theorem test_decode_setBorder :
    decode { op := 0b1000#4, colorByte := 0b10111010#8, clock := 123 } = .ok (.setBorder 0xBA 123) := rfl
theorem test_decode_newFrame : decode { op := 0b1001#4 } = .ok .newFrame := rfl
theorem test_decode_writeBitmapByte :
    decode { op := 0b1010#4, address := 0b0100000100000010#16, clock := 14569, data := 0b11110000#8 } =
      .ok (.writeBitmapByte 0x4102 14569 0xF0) := rfl
theorem test_decode_writeAttrByte :
    decode { op := 0b1011#4, address := 0b0101100000100100#16, clock := 16599, value := 0b01000010#8 } =
      .ok (.writeAttrByte 0x5824 16599 0x42) := rfl
theorem test_decode_cloneTexture : decode { op := 0b1100#4 } = .ok .cloneTexture := rfl
theorem test_decode_reserved : decode { op := 0b1101#4 } = .error (.reservedSelect 0xD) := rfl

/-- The table's words, by the host's entry point: a core row, a reserved code, a bit outside the mask. -/
theorem test_decodeTableWord :
    decodeTableWord 8 0x9 = some .newFrame ∧ decodeTableWord 8 0xE = none ∧ decodeTableWord 8 0x1C = some .cloneTexture :=
  ⟨rfl, rfl, rfl⟩

/-- `withFetchWord` makes the very next step run the row, with operand ports at zero. -/
theorem test_withFetchWord : step (setA.withFetchWord 8 0x6) = exec (.attributeFromByte 0) setA := rfl

/-! ### One step of each operation -/

/-- V1. -/
theorem test_bitmapLineAddress : [0, 63, 64, 100, 191].map (fun l => answer (.bitmapLineAddress l) setA) =
    [0x4000, 0x47E0, 0x4800, 0x4C80, 0x57E0].map (fun a => some (.address a)) := by decide

/-- V2. -/
theorem test_bitmapRowFromAddress : [0x4020, 0x4100, 0x47FF, 0x4ABC, 0x57FF].map
    (fun a => answer (.bitmapRowFromAddress a) setA) = [8, 1, 63, 106, 191].map (fun r => some (.bitmapRow r)) := by
  decide

/-- V2. -/
theorem test_bitmapColumnFromAddress : [0x4001, 0x401F, 0x4ABC].map
    (fun a => answer (.bitmapColumnFromAddress a) setA) = [1, 31, 28].map (fun c => some (.column c)) := by decide

/-- V3. -/
theorem test_attrRowFromAddress : [0x5800, 0x5820, 0x5A37, 0x5AFF].map
    (fun a => answer (.attrRowFromAddress a) setA) = [0, 1, 17, 23].map (fun r => some (.attrRow r)) := by
  decide +kernel

theorem test_attrRowFromAddress_below : refusal (.attrRowFromAddress 0x57FF) setA = some (.belowAttrBase 0x57FF) := by
  decide +kernel

/-- V3. -/
theorem test_attrColumnFromAddress : [0x581F, 0x5820, 0x5A37, 0x5AFF].map
    (fun a => answer (.attrColumnFromAddress a) setA) = [31, 0, 23, 31].map (fun c => some (.column c)) := by
  decide +kernel

theorem test_attrColumnFromAddress_below :
    refusal (.attrColumnFromAddress 0x57FF) setA = some (.belowAttrBase 0x57FF) := by decide +kernel

/-- V4, V8. -/
theorem test_colorFromBits : answer (.colorFromBits 7) setA = some (.color .white) ∧
    answer (.colorFromBits 3) setA = some (.color .purple) := by decide

theorem test_colorFromBits_fault : (after (.colorFromBits 8) setA).map State.FAULT = some (some (.colorCode 8)) := by
  decide

/-- V4. -/
theorem test_attributeFromByte :
    answer (.attributeFromByte 0x4E) setA = some (.attrib ⟨.yellow, .blue, true, false⟩) ∧
    answer (.attributeFromByte 0x99) setA = some (.attrib ⟨.blue, .purple, false, true⟩) := by decide

/-- V4: the flash swap both ways, and each of the three channels. -/
theorem test_paletteRgba :
    answer (.paletteRgba 0xC2 true true) setA = some (.rgba ⟨0, 0, 0, 255⟩) ∧
    answer (.paletteRgba 0xC2 false true) setA = some (.rgba ⟨255, 0, 0, 255⟩) ∧
    answer (.paletteRgba 0x42 true true) setA = some (.rgba ⟨255, 0, 0, 255⟩) ∧
    answer (.paletteRgba 0x2C true false) setA = some (.rgba ⟨0, 136, 0, 255⟩) ∧
    answer (.paletteRgba 0x99 false true) setA = some (.rgba ⟨0, 0, 136, 255⟩) := by decide

/-- P6: the patch and the pixels beside it. -/
theorem test_setBorder : pixels (.setBorder 0xBA 0) setA [0, 15, 4815, 16, 5120] =
    some [⟨136, 0, 0, 255⟩, ⟨136, 0, 0, 255⟩, ⟨136, 0, 0, 255⟩, ⟨0, 0, 0, 255⟩, ⟨0, 0, 0, 255⟩] := by decide +kernel

/-- E8. -/
theorem test_setBorder_level : pixels (.setBorder 0x47 5) setA [0] = some [⟨255, 255, 255, 255⟩] ∧
    pixels (.setBorder 0x07 123) setA [0] = some [⟨136, 136, 136, 255⟩] := by decide +kernel

/-- P2's last frame: pixel (48, 25) after the stale byte `0x0F` is redrawn. -/
theorem test_newFrame_redraws :
    (after .newFrame { setA with BM := [(34, 0x0F)], AT := [(2, 0x38)] }).map (fun t => t.pixel 8048) =
    some ⟨136, 136, 136, 255⟩ := by decide +kernel

/-- P4's 32nd frame: the phase toggles and the redraw uses it; pixel (40, 32). -/
theorem test_newFrame_toggles :
    (after .newFrame { setA with BM := [(257, 0x80)], AT := [(33, 0x96)], FC := 31 }).map
      (fun t => (t.FC, t.FLASH, t.pixel 10280)) = some (32, true, ⟨136, 0, 0, 255⟩) := by decide +kernel

/-- P2, V7: caught one clock before the block time, late at it; pixel (52, 25) and the byte stored. -/
theorem test_writeBitmapByte_race :
    (after (.writeBitmapByte 0x4102 14569 0xF0) { setA with AT := [(2, 0x38)] }).map
      (fun t => (t.pixel 8052, t.bitmapAt 1 2)) = some (⟨136, 136, 136, 255⟩, 0xF0) ∧
    (after (.writeBitmapByte 0x4102 14570 0xF0) { setA with AT := [(2, 0x38)] }).map
      (fun t => (t.pixel 8052, t.bitmapAt 1 2)) = some (⟨0, 0, 0, 255⟩, 0xF0) := by decide +kernel

/-- V8. -/
theorem test_writeBitmapByte_fault : [0x3FFF, 0x4000, 0x57FF, 0x5800].map
    (fun a => (after (.writeBitmapByte a 0 0x01) setA).map State.FAULT) =
    [some (some (.bitmapAddress 0x3FFF)), some none, some none, some (some (.bitmapAddress 0x5800))] := by
  decide +kernel

/-- P3's `mod 8` case: the beam far above the cell still skips lines 16 to 18; pixels (32, 42) and (32, 43). -/
theorem test_writeAttrByte_mod8 :
    (after (.writeAttrByte 0x5840 14886 0x04) { setA with BM := [(576, 0xFF), (608, 0xFF)] }).map
      (fun t => (t.pixel 13472, t.pixel 13792, t.attrAt 2 0)) =
    some (⟨0, 0, 0, 255⟩, ⟨0, 136, 0, 255⟩, 0x04) := by decide +kernel

/-- V8. -/
theorem test_writeAttrByte_fault : [0x57FF, 0x5800, 0x5AFF, 0x5B00].map
    (fun a => (after (.writeAttrByte a 0 0x01) setA).map State.FAULT) =
    [some (some (.attrAddress 0x57FF)), some none, some none, some (some (.attrAddress 0x5B00))] := by decide +kernel

/-- E9: 307200 bytes. -/
theorem test_cloneTexture : ∃ bytes, exec .cloneTexture setA = .next (setA.respond (.buffer bytes)) ∧
    bytes.length = 307200 := ⟨_, rfl, bytes_length _⟩

/-- P5: the `newFrame` after the violation is not performed. -/
theorem test_halted_newFrame : after .newFrame halted = none := by decide +kernel

/-- V5, set B. -/
theorem test_beamLine : [(0, 0), (101, 0), (102, 0), (151, 0), (152, 0), (109, 2), (110, 2), (9653, 0)].map
    (fun q => beamLine setB.CFP setB.CL q.1 q.2) = [0, 0, 1, 1, 2, 0, 1, 192] := by decide +kernel

/-- V6, set B: the attribute gate and the lines redrawn. -/
theorem test_attribute_gate : [125, 126, 1275, 1276, 1326, 1675, 1676].map
    (fun k => (attrCaught 100 50 k 3 6, (attrRedrawLines 100 50 k 3 6).head?)) =
    [(true, some 24), (true, some 25), (true, some 31), (true, some 24), (true, some 25), (true, some 31),
     (false, some 24)] := by decide +kernel

/-! ### Witnesses: the hypotheses of the obligations can be met, at the edges -/

theorem setA_inv : setA.Inv :=
  ⟨⟨.nil, by simp [setA]⟩, ⟨.nil, by simp [setA]⟩, ⟨.nil, by simp [setA]⟩, by decide⟩

theorem setA_pictureInv : setA.PictureInv :=
  ⟨fun _ _ _ => .inl rfl, fun _ _ _ _ => rfl, fun _ _ _ _ _ _ => rfl, rfl⟩

/-- Set A with one transaction to come. -/
def presenting (t : Transaction) : State := { setA with pending := [t] }

theorem presenting_inv (t : Transaction) : (presenting t).Inv := ⟨setA_inv.1, setA_inv.2, setA_inv.3, setA_inv.4⟩

theorem presenting_pictureInv (t : Transaction) : (presenting t).PictureInv :=
  ⟨setA_pictureInv.1, setA_pictureInv.2, setA_pictureInv.3, setA_pictureInv.4⟩

theorem witness_DecodeOfEncodeIsTheOperation : decode { op := 0xC, data := 0xFF } = .ok .cloneTexture := rfl

theorem witness_StepPerformsThePresentedOperation :
    (presenting { op := 0x9 }).pending = { op := 0x9 } :: [] ∧ decode { op := 0x9 } = .ok .newFrame ∧
    setA.pending = [] ∧ setA.FAULT = none ∧
    halted.pending = [] ∧ halted.FAULT = some (.bitmapAddress 0x5800) := ⟨rfl, rfl, rfl, rfl, rfl, rfl⟩

theorem witness_CallsWithoutMeaningAreRefused :
    (presenting { op := 0xD }).pending = { op := 0xD } :: [] ∧ 0xD ≤ (0xD#4).toNat ∧ (0x57FF#16).toNat < 0x5800 :=
  ⟨rfl, by decide, by decide⟩

/-- Offsets at both ends of the documented domain and at the last address. -/
theorem witness_AttrRowIsTheOffsetOver32 : (0x5800#16).toNat = 0x5800 + 0 ∧ (0x5AFF#16).toNat = 0x5800 + 0x2FF ∧
    (0x5AFF#16).toNat ≤ 0x5AFF ∧ (0xFFFF#16).toNat = 0x5800 + 0xA7FF := by decide

theorem witness_AttrColumnIsTheOffsetModulo32 : (0x5800#16).toNat = 0x5800 + 0 ∧ (0xFFFF#16).toNat = 0x5800 + 0xA7FF := by
  decide

theorem witness_CodecRoundTrips : (0x5800 ≤ (0x5800#16).toNat ∧ (0x5800#16).toNat ≤ 0x5AFF) ∧
    (0x5800 ≤ (0x5AFF#16).toNat ∧ (0x5AFF#16).toNat ≤ 0x5AFF) ∧ (23 ≤ 23 ∧ 31 ≤ 31) := by decide

theorem witness_DecodedCoordinatesAreInRange : (0x4000 ≤ (0x57FF#16).toNat ∧ (0x57FF#16).toNat ≤ 0x57FF) ∧
    (0x5800 ≤ (0x5AFF#16).toNat ∧ (0x5AFF#16).toNat ≤ 0x5AFF) := by decide

theorem witness_BitmapAddressesAndEntriesCorrespond :
    (0x4000 ≤ (0x4000#16).toNat ∧ (0x4000#16).toNat ≤ 0x57FF) ∧ (191#8).toNat ≤ 191 := by decide

theorem witness_DifferentBitmapAddressesDoNotAlias : ∃ t u : State, (0x4000#16 : Addr) ≠ 0x57FF ∧
    0x4000 ≤ (0x4000#16).toNat ∧ (0x4000#16).toNat ≤ 0x57FF ∧ 0x4000 ≤ (0x57FF#16).toNat ∧ (0x57FF#16).toNat ≤ 0x57FF ∧
    exec (.writeBitmapByte 0x4000 0 0xAA) setA = .next t ∧ exec (.writeBitmapByte 0x57FF 0 0x55) t = .next u :=
  ⟨_, _, by decide, by decide, by decide, by decide, by decide, exec_writeBitmapByte rfl (by decide) _ _,
    exec_writeBitmapByte (by simp [setA]) (by decide) _ _⟩

theorem witness_ColorFromBitsGivesTheColourOrLatches : colorsByCode[(7#8).toNat]? = some .white ∧
    (7 < (8#8).toNat ∧ setA.FAULT = none) ∧ (7 < (8#8).toNat ∧ halted.FAULT = some (.bitmapAddress 0x5800)) := by decide

theorem witness_AttributeFromByteSplitsTheByte :
    colorsByCode[(0xC2#8).toNat % 8]? = some .red ∧ colorsByCode[(0xC2#8).toNat / 8 % 8]? = some .black := by decide

theorem witness_PaletteLaws : (attributeFromByte 0x40).ink = .black ∧ (attributeFromByte 0x40).paper = .black ∧
    (if inkSelected (attributeFromByte 0x47) false false then (attributeFromByte 0x47).ink
      else (attributeFromByte 0x47).paper) = .black := by decide

theorem witness_BlockTimesFollowTheFormula : 1 ≤ 1 ∧ 0 < 191 ∧ 30 ≤ 31 ∧ 191 ≤ 191 ∧ 31 ≤ 31 ∧ 1 ≤ 119 ∧ 119 < 120 := by
  decide

/-- A clock one before the column's origin, and the origin itself. -/
theorem witness_BeamLineIsTheFirstLineAhead : 1 ≤ 50 ∧ 101 < columnOrigin 100 0 ∧ columnOrigin 100 0 ≤ 102 ∧
    1 ≤ beamLine 100 50 102 0 ∧ 102 < blockTime 100 50 1 0 := by decide

/-- Both outcomes of the gate (V7), and a pixel beside the block. -/
theorem witness_BitmapGateIsTheStrictComparison : setA.FAULT = none ∧
    0x4000 ≤ (0x4102#16).toNat ∧ (0x4102#16).toNat ≤ 0x57FF ∧
    1 = (bitmapRowFromAddress 0x4102).toNat ∧ 2 = (bitmapColumnFromAddress 0x4102).toNat ∧
    bitmapCaught setA.CFP setA.CL 14569 1 2 = true ∧ bitmapCaught setA.CFP setA.CL 14570 1 2 = false ∧
    ¬ (8056 / 320 = 24 + 1 ∧ 32 + 8 * 2 ≤ 8056 % 320 ∧ 8056 % 320 < 40 + 8 * 2) := by decide

theorem witness_PaletteRgbaLooksUpTheSelectedColour : attributeFromByte 0xC2 = ⟨.red, .black, true, true⟩ ∧
    (true ≠ (true && false)) ∧ true = (true && true) := by decide

/-- The three cases of the threshold at the clocks where they meet (V6). -/
theorem witness_AttributeGateOpensUntilTheBeamHasPassed : 1 ≤ 50 ∧ beamLine 100 50 1276 6 ≤ 3 * 8 ∧
    (3 * 8 < beamLine 100 50 1326 6 ∧ beamLine 100 50 1675 6 < (3 + 1) * 8) ∧
    (3 + 1) * 8 ≤ beamLine 100 50 1676 6 := by decide

theorem witness_EarlyWritesAreCaughtAndLateOnesAreNot : 1 ≤ 50 ∧ 101 < 100 + 2 ∧ blockTime 100 50 191 31 ≤ 9772 ∧
    191 ≤ 191 ∧ 23 ≤ 23 ∧ 31 ≤ 31 := by decide

/-- The first and the last block; a pixel of the last block and one beside it. -/
theorem witness_UpdateBlockWritesItsEightPixels : (0 < 192 ∧ 0 < 32) ∧ (191 < 192 ∧ 31 < 32 ∧ 7 < 8) ∧
    InBlock 69087 191 31 ∧ ¬ InBlock 69088 191 31 :=
  ⟨by decide, by decide, by unfold InBlock; decide, by unfold InBlock; decide⟩

theorem witness_FullRedrawIsTheLoopOfBlockUpdates : 191 < 192 ∧ 31 < 32 ∧ isCanvas 69088 = false := by decide

theorem witness_SetBorderPaintsThePatch : setA.FAULT = none := rfl

/-- A frame that toggles and one that does not; the last block; a border pixel. -/
theorem witness_NewFrameAdvancesAndRedraws : setA.FAULT = none ∧ ({ setA with FC := 31 } : State).FAULT = none ∧
    191 < 192 ∧ 31 < 32 ∧ isCanvas 0 = false := by decide

/-- Halted; the two edges outside; the two edges inside; a clock on each side of the block time 14338. -/
theorem witness_WriteBitmapByteStoresAndRacesTheBeam : halted.FAULT = some (.bitmapAddress 0x5800) ∧ setA.FAULT = none ∧
    ((0x3FFF#16).toNat < 0x4000 ∨ 0x57FF < (0x3FFF#16).toNat) ∧ ((0x5800#16).toNat < 0x4000 ∨ 0x57FF < (0x5800#16).toNat) ∧
    (0x4000 ≤ (0x57FF#16).toNat ∧ (0x57FF#16).toNat ≤ 0x57FF) ∧
    (0x4000 ≤ (0x4000#16).toNat ∧ (0x4000#16).toNat ≤ 0x57FF ∧
      0 = (bitmapRowFromAddress 0x4000).toNat ∧ 0 = (bitmapColumnFromAddress 0x4000).toNat ∧
      1 ≠ gridIndex 0 0 ∧ (7712 / 320 = 24 + 0 ∧ 32 + 8 * 0 ≤ 7712 % 320 ∧ 7712 % 320 < 40 + 8 * 0) ∧
      14337 < setA.CFP + 2 + 0 * setA.CL + (0 / 2) * 8 ∧ setA.CFP + 2 + 0 * setA.CL + (0 / 2) * 8 ≤ 14338) := by
  decide

/-- Halted; the edges outside and inside; the cell of P3 at clock 16599, where the beam is on line 11. -/
theorem witness_WriteAttrByteStoresAndRedrawsTheRest : 1 ≤ setA.CL ∧ halted.FAULT = some (.bitmapAddress 0x5800) ∧
    setA.FAULT = none ∧ ((0x57FF#16).toNat < 0x5800 ∨ 0x5AFF < (0x57FF#16).toNat) ∧
    ((0x5B00#16).toNat < 0x5800 ∨ 0x5AFF < (0x5B00#16).toNat) ∧
    ((0x5AFF#16).toNat = 0x5800 + 0x2FF ∧ (0x5AFF#16).toNat ≤ 0x5AFF) ∧
    ((0x5824#16).toNat = 0x5800 + 36 ∧ 1 = 36 / 32 ∧ 4 = 36 % 32 ∧
      11 = (if 16599 < setA.CFP + 2 + (4 / 2) * 8 then 0 else (16599 - (setA.CFP + 2 + (4 / 2) * 8)) / setA.CL + 1) ∧
      5 ≠ gridIndex 1 4 ∧ (11264 / 320 = 24 + 11 ∧ 32 + 8 * 4 ≤ 11264 % 320 ∧ 11264 % 320 < 40 + 8 * 4) ∧
      11 < (1 + 1) * 8 ∧ 1 * 8 + 11 % 8 ≤ 11) := by decide

/-- A pixel of line 10 of that cell, which the write leaves. -/
theorem witness_WriteAttrByteLeavesTheLinesAbove : ∀ line, InBlock 10944 line 4 → 11 < (1 + 1) * 8 →
    1 * 8 + 11 % 8 ≤ line → (1 + 1) * 8 ≤ line := by
  intro line h
  unfold InBlock at h
  omega

theorem witness_CloneTextureReturnsTheWholeBuffer : setA.FAULT = none ∧ 76799 < 320 * 240 := by decide

/-- `0x07` and `0xBF` (paper and flash differ), `0x02` and `0x82` (flash), `0x42` (no flash), `0x00` and `0x40`. -/
theorem witness_IgnoredOperandPartsHaveNoEffect :
    ((0x07#8).toNat % 8 = (0xBF#8).toNat % 8 ∧ (0x07#8).toNat / 64 % 2 = (0xBF#8).toNat / 64 % 2) ∧
    (0x02#8).toNat % 128 = (0x82#8).toNat % 128 ∧ (0x42#8).toNat < 128 ∧
    ((0x00#8).toNat % 64 = (0x40#8).toNat % 64 ∧ (0x00#8).toNat / 128 = (0x40#8).toNat / 128 ∧
      (if true ≠ (decide ((0x00#8).toNat / 128 = 1) && true) then (0x00#8).toNat % 8 else (0x00#8).toNat / 8 % 8) = 0) := by
  decide

theorem witness_FaultEntryLatchesAndChangesNothingElse : setA.FAULT = none ∧
    ((0x3FFF#16).toNat < 0x4000 ∨ 0x57FF < (0x3FFF#16).toNat) ∧ ((0x5800#16).toNat < 0x4000 ∨ 0x57FF < (0x5800#16).toNat) ∧
    ((0x57FF#16).toNat < 0x5800 ∨ 0x5AFF < (0x57FF#16).toNat) ∧ ((0x5B00#16).toNat < 0x5800 ∨ 0x5AFF < (0x5B00#16).toNat) ∧
    7 < (8#8).toNat := by decide

/-- One operation that faults, one that does not, one in a halted block. -/
theorem witness_ExactlyTwoKindsOfFault : setA.FAULT = none ∧ halted.FAULT = some (.bitmapAddress 0x5800) ∧
    exec (.colorFromBits 7) halted = .next (halted.respond (.color .white)) ∧
    exec (.colorFromBits 8) setA = .next (setA.raise (.colorCode 8)) ∧
    exec (.colorFromBits 7) setA = .next (setA.respond (.color .white)) := ⟨rfl, rfl, rfl, rfl, rfl⟩

theorem witness_HaltedBlockPerformsNoRendererOperation : halted.FAULT = some (.bitmapAddress 0x5800) := rfl

/-- A pure function in a halted block. -/
theorem witness_FaultedStateNeverChanges : ∃ t, halted.FAULT = some (.bitmapAddress 0x5800) ∧
    step { halted with pending := [{ op := 0x6, byte := 0x47 }] } = .next t := ⟨_, rfl, rfl⟩

/-- Each kind of change happens. -/
theorem witness_EachPieceOfStateHasItsWriters : ∃ t u, exec (.writeBitmapByte 0x4000 0 0xFF) setA = .next t ∧
    t.BM ≠ setA.BM ∧ exec (.writeAttrByte 0x5800 0 0x47) setA = .next u ∧ u.AT ≠ setA.AT :=
  ⟨_, _, exec_writeBitmapByte rfl (by decide) _ _, by rw [respond_BM, bitmapWritten_BM]; decide,
    exec_writeAttrByte rfl (by decide) _ _, by rw [respond_AT, attrWritten_AT]; decide +kernel⟩

/-- A border pixel that `setBorder` changes and a canvas pixel that a write changes. -/
theorem witness_BorderAndCanvasHaveSeparateWriters :
    (pixels (.setBorder 0x47 0) setA [4815] = some [⟨255, 255, 255, 255⟩] ∧ setA.pixel 4815 = ⟨0, 0, 0, 255⟩ ∧
      4815 < 76800 ∧ 4815 % 320 < 32) ∧
    (pixels (.writeAttrByte 0x5AFF 0 0x38) setA [69087] = some [⟨136, 136, 136, 255⟩] ∧
      setA.pixel 69087 = ⟨0, 0, 0, 255⟩ ∧ 69087 < 76800 ∧ 32 ≤ 69087 % 320 ∧ 69087 % 320 ≤ 287 ∧
      24 ≤ 69087 / 320 ∧ 69087 / 320 ≤ 215) ∧
    (191 ≤ 191 ∧ 31 ≤ 31 ∧ 69087 / 320 = 24 + 191 ∧ 32 + 8 * 31 ≤ 69087 % 320 ∧ 69087 % 320 < 40 + 8 * 31) := by
  decide +kernel

/-- A late bitmap write makes its block stale: the hypotheses hold of block (1, 2) in P2. -/
theorem witness_BlocksBecomeStaleOnlyByWritesThatDoNotRedrawThem : ∃ s t : State, s.Consistent 1 2 ∧
    exec (.writeBitmapByte 0x4102 14570 0x0F) s = .next t ∧ ¬ t.Consistent 1 2 := by
  refine ⟨{ setA with PB := { setA.PB with background := ⟨136, 136, 136, 255⟩ }, AT := [(2, 0x38)] }, _, ?_,
    exec_writeBitmapByte rfl (by decide) _ _, ?_⟩
  · unfold State.Consistent; decide +kernel
  · unfold State.Consistent; decide +kernel

/-- An attribute write makes block (16, 0) stale at clock 14886, where the beam is on line 3, above the cell (P3's
`mod 8` case), and at clock 20000, where the beam has passed the cell. -/
theorem witness_BlocksBecomeStaleByAttributeWrites : ∀ clock ∈ [14886, 20000], ∃ s t : State, s.Consistent 16 0 ∧
    exec (.writeAttrByte 0x5840 clock 0x04) s = .next t ∧ ¬ t.Consistent 16 0 := by
  intro clock hc
  refine ⟨{ setA with BM := [(512, 0xFF)] }, _, ?_, exec_writeAttrByte rfl (by decide) _ _, ?_⟩
  · unfold State.Consistent; decide +kernel
  · revert clock; unfold State.Consistent; decide +kernel

theorem witness_RepeatedOperationsAreIdempotent : ∃ t u, setA.Inv ∧ Instr.writeBitmapByte 0x4000 0 0xFF ≠ .newFrame ∧
    exec (.writeBitmapByte 0x4000 0 0xFF) setA = .next t ∧ t.FAULT = none ∧ exec .newFrame setA = .next u :=
  ⟨_, _, setA_inv, by decide, exec_writeBitmapByte rfl (by decide) _ _, by simp [setA], exec_newFrame rfl⟩

/-- Every operation with operands at an edge of its documented domain. -/
theorem witness_DocumentedOperandsRunSafely : setA.FAULT = none ∧
    ∀ i ∈ [Instr.bitmapLineAddress 191, .bitmapRowFromAddress 0x57FF, .bitmapColumnFromAddress 0x4000,
      .attrRowFromAddress 0x5800, .attrColumnFromAddress 0x5AFF, .colorFromBits 7, .attributeFromByte 0xFF,
      .paletteRgba 0xFF true true, .setBorder 0xFF 0, .newFrame, .writeBitmapByte 0x57FF 0 0,
      .writeAttrByte 0x5AFF 0 0, .cloneTexture], i.wellFormed = true := by decide +kernel

/-- Runs of `32 * n` frames that complete, for every `n`. -/
theorem witness_FlashTogglesOncePer32Frames : ∀ n, ∃ t, perform (List.replicate (32 * n) .newFrame) setA = .next t ∧
    (List.replicate (32 * n) Instr.newFrame).count .newFrame = 32 * n := by
  have run : ∀ n (s : State), s.FAULT = none → ∃ t, perform (List.replicate n .newFrame) s = .next t := by
    intro n
    induction n with
    | zero => exact fun s _ => ⟨s, rfl⟩
    | succ n ih =>
      intro s h
      obtain ⟨t, ht⟩ := ih ((fullRedraw (advanceFrame s)).respond .none) (by simp [h])
      refine ⟨t, ?_⟩
      rw [List.replicate_succ]
      unfold perform
      rw [exec_newFrame h]
      exact ht
  exact fun n => (run (32 * n) setA rfl).imp fun t ht => ⟨ht, by simp⟩

theorem witness_NewFrameForgetsWhenWritesArrived : setA.Inv ∧ setA.FAULT = none ∧
    (0x4000 ≤ (0x57FF#16).toNat ∧ (0x57FF#16).toNat ≤ 0x57FF) ∧ (0x5800 ≤ (0x5AFF#16).toNat ∧ (0x5AFF#16).toNat ≤ 0x5AFF) :=
  ⟨setA_inv, rfl, by decide, by decide⟩

theorem witness_StepKeepsTheStateInvariant : ∃ t, (presenting { op := 0xA, address := 0x4000, data := 0xFF }).Inv ∧
    step (presenting { op := 0xA, address := 0x4000, data := 0xFF }) = .next t :=
  ⟨_, presenting_inv _, (step_cons_ok rfl rfl).trans (exec_writeBitmapByte rfl (by decide) _ _)⟩

theorem witness_StepKeepsThePictureInvariant : ∃ t, (presenting { op := 0x9 }).PictureInv ∧
    step (presenting { op := 0x9 }) = .next t :=
  ⟨_, presenting_pictureInv _, (step_cons_ok rfl rfl).trans (exec_newFrame rfl)⟩

theorem witness_StepKeepsTheConstants : ∃ t, step (presenting { op := 0x8, colorByte := 0x07 }) = .next t :=
  ⟨_, (step_cons_ok rfl rfl).trans (exec_setBorder rfl _ _)⟩

end Sys2Proof.Tests
end

section
/-! PROOFS. The address codec (40_address_codec.md): encode and decode invert each other (R117), and what a valid address
decodes to lies in its grid (R118). -/

namespace Sys2Proof.Machine

/-- R117 (a), on all 256 rows: the decode reads the encode's three fields back and puts them in the line's own order. -/
theorem bitmapRowFromAddress_bitmapLineAddress (row : BitVec 8) :
    bitmapRowFromAddress (bitmapLineAddress row) = row := by
  have hlt := row.isLt
  obtain ⟨hThird, hLine, hCharRow, -⟩ := fields_of_parts (q := row.toNat / 64) (m := row.toNat / 8 % 8)
    (r := row.toNat % 8) (c := 0) (by omega) (by omega) (by omega) (by omega) (bitmapLineAddress_toNat row)
  apply BitVec.eq_of_toNat_eq
  rw [bitmapRowFromAddress_toNat, hThird, hLine, hCharRow]
  omega

/-- The address is the encode of its row and column: quotient and remainder of the offset by 32 give the offset back. -/
theorem attrAddress_of_decode {a : Addr} (h : inAttrRegion a = true) :
    attrAddress (attrRowFromAddress a) (attrColumnFromAddress a).toNat = a := by
  have hBase := toNat_eq_base_add_offset ((inAttrRegion_iff a).mp h).1
  apply BitVec.eq_of_toNat_eq
  rw [attrAddress_toNat (Nat.le_of_lt_succ (attrRow_lt h)) (Nat.le_of_lt_succ (attrColumn_lt a)),
    attrRowFromAddress_eq, attrColumnFromAddress_toNat, Nat.add_assoc, Nat.div_add_mod, ← hBase]

section encoded
variable {row col : Nat} (hr : row ≤ 23) (hc : col ≤ 31)
include hr hc

theorem attrOffset_attrAddress : attrOffset (attrAddress row col) = 32 * row + col :=
  attrOffset_eq (by rw [attrAddress_toNat hr hc, Nat.add_assoc])

theorem attrRowFromAddress_attrAddress : attrRowFromAddress (attrAddress row col) = row := by
  rw [attrRowFromAddress_eq, attrOffset_attrAddress hr hc]
  omega

theorem attrColumnFromAddress_attrAddress : (attrColumnFromAddress (attrAddress row col)).toNat = col := by
  rw [attrColumnFromAddress_toNat, attrOffset_attrAddress hr hc]
  omega

end encoded

/-- Settles O10: (a) field by field, (b) by division of the offset with remainder, in both directions. -/
theorem codecRoundTrips : Obligations.CodecRoundTrips := by
  refine ⟨bitmapRowFromAddress_bitmapLineAddress, fun a hlo hhi => ?_, fun row col hr hc =>
    ⟨attrRowFromAddress_attrAddress hr hc, attrColumnFromAddress_attrAddress hr hc⟩⟩
  have hRegion := (inAttrRegion_iff a).mpr ⟨hlo, hhi⟩
  exact ⟨Nat.le_of_lt_succ (attrRow_lt hRegion), Nat.le_of_lt_succ (attrColumn_lt a), attrAddress_of_decode hRegion⟩

/-- Settles O11: the region bounds the line and the attribute row; a column has five bits. -/
theorem decodedCoordinatesAreInRange : Obligations.DecodedCoordinatesAreInRange := by
  refine ⟨fun a hlo hhi => ⟨?line, Nat.le_of_lt_succ (bitmapColumn_lt a)⟩,
    fun a hlo hhi => ⟨?row, Nat.le_of_lt_succ (attrColumn_lt a)⟩⟩
  case line => exact Nat.le_of_lt_succ (bitmapRow_lt ((inBitmapRegion_iff a).mpr ⟨hlo, hhi⟩))
  case row => exact Nat.le_of_lt_succ (attrRow_lt ((inAttrRegion_iff a).mpr ⟨hlo, hhi⟩))

end Sys2Proof.Machine
end

section
/-! PROOFS. The palette look-up (41_attribute_palette.md): which of ink and paper the selection picks, and what
`paletteRgba` answers (R134). -/

namespace Sys2Proof.Machine

/-- The exclusive or of R134 as a comparison of its two sides. -/
theorem inkSelected_iff (attr : Attribute) (pixelState flashPhase : Bool) :
    inkSelected attr pixelState flashPhase = true ↔ pixelState ≠ (attr.flash && flashPhase) := by
  rw [inkSelected, bne_iff_ne]

theorem paletteRgba_of_ne {attr : Attribute} {pixelState flashPhase : Bool}
    (h : pixelState ≠ (attr.flash && flashPhase)) :
    paletteRgba attr pixelState flashPhase = colorRgba attr.ink attr.bright := by
  rw [paletteRgba, if_pos ((inkSelected_iff attr pixelState flashPhase).mpr h)]

theorem paletteRgba_of_eq {attr : Attribute} {pixelState flashPhase : Bool}
    (h : pixelState = (attr.flash && flashPhase)) :
    paletteRgba attr pixelState flashPhase = colorRgba attr.paper attr.bright := by
  rw [paletteRgba, if_neg fun hInk => (inkSelected_iff attr pixelState flashPhase).mp hInk h]

/-- R134 with the whole frame: the pixel goes to the result port, in every state. -/
theorem exec_paletteRgba (b : Byte) (pixelState flashPhase : Bool) (s : State) :
    exec (.paletteRgba b pixelState flashPhase) s =
      .next { s with result := .rgba (paletteRgba (attributeFromByte b) pixelState flashPhase) } := rfl

/-- Settles O17: the two cases of the selection, each looked up with the one bright bit. -/
theorem paletteRgbaLooksUpTheSelectedColour : Obligations.PaletteRgbaLooksUpTheSelectedColour := by
  rintro b pixelState flashPhase s attr rfl
  refine ⟨fun hInk => ?ink, fun hPaper => ?paper⟩
  case ink => rw [exec_paletteRgba, paletteRgba_of_ne hInk]
  case paper => rw [exec_paletteRgba, paletteRgba_of_eq hPaper]

end Sys2Proof.Machine
end

section
/-! PROOFS. Beam timing (42_beam_timing.md): the block times and their order (R151), and the bitmap gate with what it
decides about the buffer (R154). -/

namespace Sys2Proof.Machine

/-! ### Block times -/

/-- R151's formula, its terms in the order of the rule. -/
theorem blockTime_formula (cfp cl line col : Nat) :
    blockTime cfp cl line col = cfp + 2 + line * cl + col / 2 * 8 := by
  rw [blockTime_eq, Nat.add_right_comm]

theorem blockTime_congr {col col' : Nat} (h : col / 2 = col' / 2) (cfp cl line : Nat) :
    blockTime cfp cl line col = blockTime cfp cl line col' := by
  rw [blockTime_eq, blockTime_eq, h]

theorem blockTime_succ (cfp cl line col : Nat) :
    blockTime cfp cl (line + 1) col = blockTime cfp cl line col + cl := by
  rw [blockTime_eq, blockTime_eq, Nat.succ_mul, Nat.add_assoc _ (line * cl)]

theorem blockTime_strictMono {cfp cl col : Nat} (hcl : 1 ≤ cl) : StrictMono fun line => blockTime cfp cl line col :=
  strictMono_nat_of_lt_succ fun line => by
    rw [blockTime_succ]
    exact Nat.lt_add_of_pos_right hcl

theorem blockTime_mono_col {col col' : Nat} (h : col ≤ col') (cfp cl line : Nat) :
    blockTime cfp cl line col ≤ blockTime cfp cl line col' := by
  have hPair : col / 2 ≤ col' / 2 := Nat.div_le_div_right h
  rw [blockTime_eq, blockTime_eq]
  omega

theorem blockTime_first (cfp cl : Nat) : blockTime cfp cl 0 0 = cfp + 2 := by
  rw [blockTime_zero, columnOrigin_eq]

theorem blockTime_last (cfp cl : Nat) : blockTime cfp cl 191 31 = cfp + 2 + 191 * cl + 120 :=
  blockTime_formula cfp cl 191 31

/-- The corner blocks bound the block times of the canvas, which grow in the line and in the column. -/
theorem blockTime_bounds {line col : Nat} (hLine : line ≤ 191) (hCol : col ≤ 31) (cfp cl : Nat) :
    cfp + 2 ≤ blockTime cfp cl line col ∧ blockTime cfp cl line col ≤ cfp + 2 + 191 * cl + 120 := by
  rw [← blockTime_last, ← blockTime_first cfp cl]
  exact ⟨(blockTime_mono (Nat.zero_le line)).trans (blockTime_mono_col (Nat.zero_le col) cfp cl line),
    (blockTime_mono hLine).trans (blockTime_mono_col hCol cfp cl 191)⟩

/-- The last column's offset is 120, so a shorter line period puts the next line's first block before it. -/
theorem blockTime_succ_zero_lt {cl : Nat} (hcl : cl < 120) (cfp line : Nat) :
    blockTime cfp cl (line + 1) 0 < blockTime cfp cl line 31 := by
  rw [blockTime_succ, blockTime_eq, blockTime_eq]
  omega

/-- Settles O20: the formula, from which the pairs, the order and the extremes follow. -/
theorem blockTimesFollowTheFormula : Obligations.BlockTimesFollowTheFormula := by
  intro cfp cl hcl
  refine ⟨blockTime_formula cfp cl, fun col => (blockTime_zero cfp cl col).symm, fun line k => ?pair,
    fun _ _ _ hLine => blockTime_strictMono hcl hLine, fun line _ _ hCol => blockTime_mono_col hCol cfp cl line,
    fun _ _ hLine hCol => blockTime_bounds hLine hCol cfp cl, blockTime_first cfp cl, blockTime_last cfp cl,
    fun hShort => blockTime_succ_zero_lt hShort cfp⟩
  case pair => exact blockTime_congr (by omega) cfp cl line

/-! ### The bitmap gate -/

/-- R154: equality is too late. -/
theorem bitmapCaught_blockTime (cfp cl line col : Nat) :
    bitmapCaught cfp cl (blockTime cfp cl line col) line col = false :=
  decide_eq_false (Nat.lt_irrefl _)

/-- A block's consistency is about the grids, the flash phase and the buffer. -/
theorem consistent_respond {s : State} {line col : Nat} (h : s.Consistent line col) (r : Result) :
    (s.respond r).Consistent line col := h

/-- R171: a block that was just redrawn shows what the grids and the flash phase say. -/
theorem consistent_updateBlock (s : State) {line col : Nat} (hCol : col < 32) :
    (updateBlock line col s).Consistent line col := by
  intro k hk
  have hIndex : pixelIndex (borderX + 8 * col + k) (borderY + line) = (24 + line) * 320 + (32 + 8 * col + k) := rfl
  have hLane : (((24 + line) * 320 + (32 + 8 * col + k)) % 320 - 32) % 8 = k := by omega
  rw [hIndex, pixel_updateBlock s hCol, if_pos (by omega), hLane,
    shownPixel_congr s _ (updateBlock_BM s line col) (updateBlock_AT s line col) (updateBlock_FLASH s line col)]

/-- R171: the pixels beside the block keep their value. -/
theorem pixel_updateBlock_of_not_inBlock (s : State) {line col i : Nat} (hCol : col < 32) (h : ¬ InBlock i line col) :
    (updateBlock line col s).pixel i = s.pixel i := by
  rw [pixel_updateBlock s hCol]
  exact if_neg h

/-- Settles O22: the gate is the formula of R151; a caught write is `updateBlock` of the stored state, a late one is the
stored state itself. -/
theorem bitmapGateIsTheStrictComparison : Obligations.BitmapGateIsTheStrictComparison := by
  refine ⟨fun cfp cl clock line col => ⟨?gate, bitmapCaught_blockTime cfp cl line col⟩,
    fun a clock d s hFault hlo hhi =>
      ⟨_, exec_writeBitmapByte hFault ((inBitmapRegion_iff a).mpr ⟨hlo, hhi⟩) clock d, ?effect⟩⟩
  case gate => rw [bitmapCaught_iff, blockTime_formula]
  case effect =>
    rintro line col rfl rfl
    have hCol := bitmapColumn_lt a
    refine ⟨fun hCaught => ?caught, fun hLate => ?late⟩
    case caught =>
      rw [bitmapWritten_eq_of_caught a clock d s hCaught]
      refine ⟨consistent_respond (consistent_updateBlock _ hCol) .none, fun i hi => ?_⟩
      rw [pixel_respond, pixel_updateBlock_of_not_inBlock _ hCol hi, pixel_storeBitmap]
    case late =>
      rw [bitmapWritten_eq_of_late a clock d s (Bool.eq_false_iff.mp hLate), respond_PB, storeBitmap_PB]

end Sys2Proof.Machine
end

section
/-! PROOFS. The renderer's two internal helpers (43_renderer_ops.md): what one block update writes (R171), and the full
redraw as the double loop of block updates (R172). -/

namespace Sys2Proof.Machine

/-! ### Runs of pixels written one after the other -/

theorem PixelBuffer.writeRun_idem (pb : PixelBuffer) (start : Nat) (px : List Rgba) :
    (pb.writeRun start px).writeRun start px = pb.writeRun start px :=
  congrArg (PixelBuffer.mk pb.background) (Machine.writeRun_idem pb.background start px pb.painted)

theorem PixelBuffer.writeRun_append (pb : PixelBuffer) (start : Nat) (px qx : List Rgba) :
    pb.writeRun start (px ++ qx) = (pb.writeRun start px).writeRun (start + px.length) qx :=
  congrArg (PixelBuffer.mk pb.background) (Machine.writeRun_append pb.background start px qx pb.painted)

/-! ### One block -/

/-- Drawing reads the grids and the flash phase, never the buffer. -/
theorem blockPixels_withPB (s : State) (pb : PixelBuffer) (line col : Nat) :
    blockPixels { s with PB := pb } line col = blockPixels s line col :=
  blockPixels_congr s _ rfl rfl rfl line col

theorem drawBlock_withPB (s : State) (pb pb' : PixelBuffer) (line col : Nat) :
    drawBlock { s with PB := pb } pb' line col = drawBlock s pb' line col := by
  rw [drawBlock, blockPixels_withPB, ← drawBlock]

theorem drawBlock_idem (s : State) (pb : PixelBuffer) (line col : Nat) :
    drawBlock s (drawBlock s pb line col) line col = drawBlock s pb line col :=
  PixelBuffer.writeRun_idem pb _ _

/-- R171: `updateBlock` is idempotent, since it changes nothing that it reads. -/
theorem updateBlock_idem (line col : Nat) (s : State) :
    updateBlock line col (updateBlock line col s) = updateBlock line col s := by
  simp only [updateBlock, drawBlock_withPB, drawBlock_idem]

/-- Settles O25: the lanes by the consistency of the block, the other pixels by the frame of `updateBlock`. -/
theorem updateBlockWritesItsEightPixels : Obligations.UpdateBlockWritesItsEightPixels := by
  intro line col s _ hCol
  exact ⟨consistent_updateBlock s hCol, fun _ => pixel_updateBlock_of_not_inBlock s hCol,
    updateBlock_background s line col, rfl, updateBlock_idem line col s⟩

/-! ### The full redraw as a loop -/

/-- Blocks side by side are one run. It takes a first block: a run of no pixels would still sort the cells. -/
theorem foldl_drawBlock_succ (s : State) (pb : PixelBuffer) (line n : Nat) :
    (List.range (n + 1)).foldl (fun pb col => drawBlock s pb line col) pb =
      pb.writeRun (blockStart line 0) ((List.range (n + 1)).flatMap (blockPixels s line)) := by
  induction n with
  | zero => rfl
  | succ n ih =>
    have hLength : ((List.range (n + 1)).flatMap (blockPixels s line)).length = 8 * (n + 1) := by
      simp [List.length_flatMap, Nat.mul_comm]
    have hStart : blockStart line 0 + 8 * (n + 1) = blockStart line (n + 1) := by
      rw [blockStart_eq, blockStart_eq]; omega
    rw [List.range_succ, List.foldl_append, ih, List.flatMap_append, PixelBuffer.writeRun_append, hLength, hStart,
      List.flatMap_singleton]
    rfl

/-- The inner loop of R172. -/
theorem drawLine_eq_foldl_drawBlock (s : State) (pb : PixelBuffer) (line : Nat) :
    drawLine s pb line = (List.range 32).foldl (fun pb col => drawBlock s pb line col) pb :=
  (foldl_drawBlock_succ s pb line 31).symm

theorem drawLine_withPB (s : State) (pb pb' : PixelBuffer) (line : Nat) :
    drawLine { s with PB := pb } pb' line = drawLine s pb' line := by
  simp only [drawLine_eq_foldl_drawBlock, drawBlock_withPB]

/-- A loop of operations that each draw into the buffer, none reading it, runs over the buffer alone. -/
theorem foldl_eq_withPB {op : State → Nat → State} {draw : State → PixelBuffer → Nat → PixelBuffer}
    (hOp : ∀ t n, op t n = { t with PB := draw t t.PB n })
    (hDraw : ∀ t pb pb' n, draw { t with PB := pb } pb' n = draw t pb' n) (ns : List Nat) (s : State) :
    ns.foldl op s = { s with PB := ns.foldl (draw s) s.PB } := by
  induction ns generalizing s with
  | nil => rfl
  | cons n ns ih =>
    have hRest : draw { s with PB := draw s s.PB n } = draw s := funext₂ fun pb' m => hDraw s _ pb' m
    rw [List.foldl_cons, List.foldl_cons, hOp, ih, hRest]

/-- The 32 block updates of a line draw that line. -/
theorem foldl_updateBlock_eq_drawLine (s : State) (line : Nat) :
    (List.range 32).foldl (fun t col => updateBlock line col t) s = { s with PB := drawLine s s.PB line } := by
  rw [drawLine_eq_foldl_drawBlock]
  exact foldl_eq_withPB (draw := fun t pb col => drawBlock t pb line col) (fun _ _ => rfl)
    (fun t pb pb' col => drawBlock_withPB t pb pb' line col) (List.range 32) s

theorem fullRedraw_eq_withPB (s : State) : fullRedraw s = { s with PB := (fullRedraw s).PB } := by
  rw [fullRedraw_PB, fullRedraw]

/-- R172: `fullRedraw` is the double loop of `updateBlock`, whatever the form of the buffer. -/
theorem fullRedraw_eq_foldl_updateBlock (s : State) :
    fullRedraw s = (List.range 192).foldl (fun t line =>
      (List.range 32).foldl (fun t col => updateBlock line col t) t) s := by
  rw [foldl_eq_withPB (draw := drawLine) foldl_updateBlock_eq_drawLine drawLine_withPB, fullRedraw_eq_withPB,
    fullRedraw_PB, canvasH]

/-- R172: after a full redraw every block of the canvas is consistent. -/
theorem consistent_fullRedraw (s : State) {line col : Nat} (hLine : line < 192) (hCol : col < 32) :
    (fullRedraw s).Consistent line col := by
  intro k hk
  rw [pixelIndex_eq, borderX, borderY]
  have hCanvas : isCanvas ((24 + line) * 320 + (32 + 8 * col + k)) = true := by
    rw [isCanvas_iff]; omega
  have hRow : ((24 + line) * 320 + (32 + 8 * col + k)) / 320 - 24 = line := by omega
  have hBlock : (((24 + line) * 320 + (32 + 8 * col + k)) % 320 - 32) / 8 = col := by omega
  have hLane : (((24 + line) * 320 + (32 + 8 * col + k)) % 320 - 32) % 8 = k := by omega
  rw [pixel_fullRedraw, if_pos hCanvas, hRow, hBlock, hLane,
    shownPixel_congr s _ (fullRedraw_BM s) (fullRedraw_AT s) (fullRedraw_FLASH s)]

theorem pixel_fullRedraw_of_border (s : State) {i : Nat} (h : isCanvas i = false) :
    (fullRedraw s).pixel i = s.pixel i := by
  rw [pixel_fullRedraw, h, if_neg Bool.false_ne_true]

/-- Settles O26: the loop line by line, the pixels by the redraw's reading of the grids. -/
theorem fullRedrawIsTheLoopOfBlockUpdates : Obligations.FullRedrawIsTheLoopOfBlockUpdates := fun s =>
  ⟨fullRedraw_eq_foldl_updateBlock s, fun _ _ => consistent_fullRedraw s, fun _ => pixel_fullRedraw_of_border s,
    fullRedraw_eq_withPB s⟩

end Sys2Proof.Machine
end

section
/-! PROOFS. What an operation can do to the picture (10_state.md R31): every canvas pixel it changes shows the grids and
the flash phase after it, every other pixel it changes lies in the border patch. -/

namespace Sys2Proof.Machine

/-! ### Redrawing canvas pixels -/

/-- What canvas pixel `i` has by the grids and the flash phase (43_renderer_ops.md R171). -/
def State.shownAt (s : State) (i : Nat) : Rgba :=
  s.shownPixel (i / 320 - 24) ((i % 320 - 32) / 8) ((i % 320 - 32) % 8)

/-- From `s` to `t` no pixel changed but canvas pixels, and those show what the grids and the flash phase of `t` say. -/
def CanvasRedrawn (s t : State) : Prop :=
  ∀ i, t.pixel i = s.pixel i ∨ (isCanvas i = true ∧ t.pixel i = t.shownAt i)

theorem canvasRedrawn_of_pixel_eq {s t : State} (h : ∀ i, t.pixel i = s.pixel i) : CanvasRedrawn s t :=
  fun i => .inl (h i)

theorem CanvasRedrawn.pixel_of_border {s t : State} (h : CanvasRedrawn s t) {i : Nat} (hi : isCanvas i = false) :
    t.pixel i = s.pixel i :=
  (h i).resolve_right fun hCanvas => Bool.false_ne_true (hi.symm.trans hCanvas.1)

/-- The result port has no part in the picture. -/
theorem CanvasRedrawn.respond {s t : State} (h : CanvasRedrawn s t) (r : Result) : CanvasRedrawn s (t.respond r) := h

theorem canvasRedrawn_updateBlock (s : State) {line col : Nat} (hLine : line < 192) (hCol : col < 32) :
    CanvasRedrawn s (updateBlock line col s) := by
  intro i
  by_cases hi : i / 320 = 24 + line ∧ 32 + 8 * col ≤ i % 320 ∧ i % 320 < 40 + 8 * col
  · have hRow : i / 320 - 24 = line := by omega
    have hBlock : (i % 320 - 32) / 8 = col := by omega
    rw [pixel_updateBlock s hCol, if_pos hi, isCanvas_iff, State.shownAt, hRow, hBlock,
      shownPixel_congr s _ (updateBlock_BM s line col) (updateBlock_AT s line col) (updateBlock_FLASH s line col)]
    exact .inr ⟨by omega, rfl⟩
  · rw [pixel_updateBlock s hCol, if_neg hi]
    exact .inl rfl

theorem canvasRedrawn_updateLines (s : State) {first n col : Nat} (hLines : first + n ≤ 192) (hCol : col < 32) :
    CanvasRedrawn s (updateLines (List.range' first n) col s) := by
  intro i
  by_cases hi : 24 + first ≤ i / 320 ∧ i / 320 < 24 + first + n ∧ 32 + 8 * col ≤ i % 320 ∧ i % 320 < 40 + 8 * col
  · have hBlock : (i % 320 - 32) / 8 = col := by omega
    rw [pixel_updateLines s hCol, if_pos hi, isCanvas_iff, State.shownAt, hBlock,
      shownPixel_congr s _ (updateLines_BM _ col s) (updateLines_AT _ col s) (updateLines_FLASH _ col s)]
    exact .inr ⟨by omega, rfl⟩
  · rw [pixel_updateLines s hCol, if_neg hi]
    exact .inl rfl

theorem pixel_newFrame (s : State) (i : Nat) :
    (fullRedraw (advanceFrame s)).pixel i = if isCanvas i then (advanceFrame s).shownAt i else s.pixel i := by
  rw [pixel_fullRedraw, State.shownAt, pixel_congr s (advanceFrame s) (advanceFrame_PB s)]

theorem canvasRedrawn_newFrame (s : State) : CanvasRedrawn s (fullRedraw (advanceFrame s)) := by
  intro i
  rw [pixel_newFrame]
  split
  case isTrue hi =>
    rw [State.shownAt, State.shownAt, shownPixel_congr (advanceFrame s) _ (fullRedraw_BM _) (fullRedraw_AT _)
      (fullRedraw_FLASH _)]
    exact .inr ⟨hi, rfl⟩
  case isFalse => exact .inl rfl

theorem canvasRedrawn_bitmapWritten {a : Addr} (ha : inBitmapRegion a = true) (clock : Nat) (d : Byte) (s : State) :
    CanvasRedrawn s (bitmapWritten a clock d s) := by
  by_cases h : bitmapCaught s.CFP s.CL clock (bitmapRowFromAddress a).toNat (bitmapColumnFromAddress a).toNat = true
  · rw [bitmapWritten_eq_of_caught a clock d s h]
    exact canvasRedrawn_updateBlock (s.storeBitmap _ _ d) (bitmapRow_lt ha) (bitmapColumn_lt a)
  · rw [bitmapWritten_eq_of_late a clock d s h]
    exact canvasRedrawn_of_pixel_eq (pixel_storeBitmap s _ _ d)

theorem canvasRedrawn_attrWritten {a : Addr} (ha : inAttrRegion a = true) (clock : Nat) (v : Byte) (s : State) :
    CanvasRedrawn s (attrWritten a clock v s) := by
  by_cases h : attrCaught s.CFP s.CL clock (attrRowFromAddress a) (attrColumnFromAddress a).toNat = true
  · have hRow := attrRow_lt ha
    rw [attrWritten_eq_of_caught a clock v s h, attrRedrawLines_eq]
    exact canvasRedrawn_updateLines (s.storeAttr _ _ v) (by omega) (attrColumn_lt a)
  · rw [attrWritten_eq_of_late a clock v s h]
    exact canvasRedrawn_of_pixel_eq (pixel_storeAttr s _ _ v)

/-! ### Every operation -/

/-- The operations that draw into the canvas (10_state.md R31). -/
def DrawsCanvas (i : Instr) : Prop :=
  i = .newFrame ∨ (∃ a k d, i = .writeBitmapByte a k d) ∨ ∃ a k d, i = .writeAttrByte a k d

/-- An operation paints the border patch, or redraws canvas pixels; it changes no pixel unless it is one that draws. -/
theorem exec_picture_cases {i : Instr} {s t : State} (h : exec i s = .next t) :
    (∃ c k, i = .setBorder c k ∧
      t = (paintPatch (paletteRgba (attributeFromByte c) true false) s).respond .none) ∨
    (CanvasRedrawn s t ∧ (DrawsCanvas i ∨ t.PB = s.PB)) := by
  rcases exec_next_cases h with ⟨-, r, rfl⟩ | ⟨v, -, rfl⟩ | ⟨-, -, ⟨c, k, rfl, rfl⟩ | ⟨rfl, rfl⟩ |
    ⟨a, k, d, rfl, ha, rfl⟩ | ⟨a, k, v, rfl, ha, rfl⟩⟩
  · exact .inr ⟨canvasRedrawn_of_pixel_eq (pixel_respond s r), .inr rfl⟩
  · exact .inr ⟨canvasRedrawn_of_pixel_eq (pixel_congr s _ (raise_PB s v)), .inr rfl⟩
  · exact .inl ⟨c, k, rfl, rfl⟩
  · exact .inr ⟨(canvasRedrawn_newFrame s).respond .none, .inl (.inl rfl)⟩
  · exact .inr ⟨(canvasRedrawn_bitmapWritten ha k d s).respond .none, .inl (.inr (.inl ⟨a, k, d, rfl⟩))⟩
  · exact .inr ⟨(canvasRedrawn_attrWritten ha k v s).respond .none, .inl (.inr (.inr ⟨a, k, v, rfl⟩))⟩

/-- R31: a pixel that an operation changes is drawn in the canvas from the grids, or painted in the patch. -/
theorem exec_pixel_cases {i : Instr} {s t : State} (h : exec i s = .next t) {p : Nat} (hp : t.pixel p ≠ s.pixel p) :
    (isCanvas p = true ∧ DrawsCanvas i ∧ t.pixel p = t.shownAt p) ∨
    (inBorderPatch p = true ∧ ∃ c k, i = .setBorder c k) := by
  rcases exec_picture_cases h with ⟨c, k, rfl, rfl⟩ | ⟨hDraw, hi⟩
  · rw [pixel_respond, pixel_paintPatch, ne_eq, ite_eq_right_iff, Classical.not_imp] at hp
    exact .inr ⟨hp.1, c, k, rfl⟩
  · obtain ⟨hCanvas, hShown⟩ := (hDraw p).resolve_left hp
    exact .inl ⟨hCanvas, hi.resolve_right fun hPB => hp (pixel_congr s t hPB p), hShown⟩

theorem exec_sameConstants {i : Instr} {s t : State} (h : exec i s = .next t) : SameConstants s t := by
  rcases exec_next_cases h with ⟨-, r, rfl⟩ | ⟨v, -, rfl⟩ | ⟨-, -, ⟨c, k, rfl, rfl⟩ | ⟨rfl, rfl⟩ |
    ⟨a, k, d, rfl, -, rfl⟩ | ⟨a, k, v, rfl, -, rfl⟩⟩ <;> simp [SameConstants]

end Sys2Proof.Machine
end

section
/-! PROOFS. What every step keeps: the form of the state (10_state.md section 2), the picture (R36) and the constants
(R28, R35), each an invariant of the constructed block too. -/

namespace Sys2Proof.Machine

/-! ### From operations to steps -/

/-- What does not speak of the transactions to come, and every operation keeps, every step keeps. -/
theorem step_keeps {P : State → Prop} (hPending : ∀ s rest, P s → P { s with pending := rest })
    (hExec : ∀ i s t, P s → exec i s = .next t → P t) {s t : State} (hs : P s) (h : step s = .next t) : P t := by
  rcases step_next_cases h with ⟨-, -, rfl⟩ | ⟨_, rest, i, -, -, hi⟩
  · exact hs
  · exact hExec i _ t (hPending s rest hs) hi

/-! ### The constants -/

/-- Settles O49: the constants of a fixed state are an invariant, since no operation touches them. -/
theorem stepKeepsTheConstants : Obligations.StepKeepsTheConstants := by
  intro s t h
  refine step_keeps (P := fun u => u.CFP = s.CFP ∧ u.CL = s.CL ∧ u.PB.background = s.PB.background)
    (fun _ _ hu => hu) (fun i u u' hu hi => ?_) ⟨rfl, rfl, rfl⟩ h
  obtain ⟨hCFP, hCL, hBackground, -⟩ := exec_sameConstants hi
  rw [hCFP, hCL, hBackground]
  exact hu

/-! ### The form of the state -/

/-- A grid index of an entry inside the grid. -/
theorem gridIndex_lt {row col rows : Nat} (hRow : row < rows) (hCol : col < 32) :
    gridIndex row col < rows * blockCols := by
  simp only [gridIndex, blockCols]
  omega

/-- Canonical grids and the line clocks carry over when an operation leaves them. -/
theorem State.Inv.of_buffer {s t : State} (h : s.Inv) (hBM : t.BM = s.BM) (hAT : t.AT = s.AT) (hCL : t.CL = s.CL)
    (hPB : t.PB.wf) : t.Inv :=
  ⟨hBM ▸ h.bitmap, hAT ▸ h.attrs, hPB, hCL ▸ h.lineClocks⟩

theorem State.Inv.bitmapWritten {s : State} (h : s.Inv) {a : Addr} (ha : inBitmapRegion a = true) (clock : Nat)
    (d : Byte) : (bitmapWritten a clock d s).Inv where
  bitmap := by
    rw [bitmapWritten_BM]
    exact Memory.wf_write h.bitmap (gridIndex_lt (bitmapRow_lt ha) (bitmapColumn_lt a)) d
  attrs := by rw [bitmapWritten_AT]; exact h.attrs
  buffer := wf_bitmapWritten h.buffer ha clock d
  lineClocks := by rw [bitmapWritten_CL]; exact h.lineClocks

theorem State.Inv.attrWritten {s : State} (h : s.Inv) {a : Addr} (ha : inAttrRegion a = true) (clock : Nat)
    (v : Byte) : (attrWritten a clock v s).Inv where
  bitmap := by rw [attrWritten_BM]; exact h.bitmap
  attrs := by
    rw [attrWritten_AT]
    exact Memory.wf_write h.attrs (gridIndex_lt (attrRow_lt ha) (attrColumn_lt a)) v
  buffer := wf_attrWritten h.buffer ha clock v
  lineClocks := by rw [attrWritten_CL]; exact h.lineClocks

theorem State.Inv.paintPatch {s : State} (h : s.Inv) (c : Rgba) : (paintPatch c s).Inv :=
  h.of_buffer (paintPatch_BM s c) (paintPatch_AT s c) (paintPatch_CL s c) (wf_paintPatch h.buffer c)

theorem State.Inv.newFrame {s : State} (h : s.Inv) : (fullRedraw (advanceFrame s)).Inv :=
  h.of_buffer (fullRedraw_BM _) (fullRedraw_AT _) (fullRedraw_CL _)
    (wf_fullRedraw (s := advanceFrame s) h.buffer)

/-- The result port has no part in the form. -/
theorem State.Inv.respond {s : State} (h : s.Inv) (r : Result) : (s.respond r).Inv :=
  h.of_buffer rfl rfl rfl h.buffer

theorem exec_keeps_inv {i : Instr} {s t : State} (hs : s.Inv) (h : exec i s = .next t) : t.Inv := by
  rcases exec_next_cases h with ⟨-, r, rfl⟩ | ⟨v, -, rfl⟩ | ⟨-, -, ⟨c, k, -, rfl⟩ | ⟨-, rfl⟩ |
    ⟨a, k, d, -, ha, rfl⟩ | ⟨a, k, v, -, ha, rfl⟩⟩
  · exact hs.respond r
  · exact hs.of_buffer rfl rfl rfl hs.buffer
  · exact (hs.paintPatch _).respond .none
  · exact hs.newFrame.respond .none
  · exact (hs.bitmapWritten ha k d).respond .none
  · exact (hs.attrWritten ha k v).respond .none

/-- Settles O46: each operation writes canonical cells inside the grids and the buffer, and the transactions to come
have no part in the form. -/
theorem stepKeepsTheStateInvariant : Obligations.StepKeepsTheStateInvariant :=
  fun _ _ hs h => step_keeps (P := State.Inv) (fun _ _ hu => hu.of_buffer rfl rfl rfl hu.buffer)
    (fun _ _ _ => exec_keeps_inv) hs h

/-! ### The picture -/

theorem isPalettePixel_paletteRgba (attr : Attribute) (pixelState flashPhase : Bool) :
    IsPalettePixel (paletteRgba attr pixelState flashPhase) := ⟨_, _, rfl⟩

theorem isPalettePixel_shownAt (s : State) (i : Nat) : IsPalettePixel (s.shownAt i) :=
  isPalettePixel_paletteRgba _ _ _

/-- The patch lies in the border (10_state.md R31). -/
theorem not_isCanvas_of_inBorderPatch {i : Nat} (h : inBorderPatch i = true) : isCanvas i = false := by
  rw [inBorderPatch_iff] at h
  rw [Bool.eq_false_iff, ne_eq, isCanvas_iff]
  omega

/-- Redrawing canvas pixels keeps the picture invariant: what is drawn comes from the palette, the border stays. -/
theorem State.PictureInv.of_canvasRedrawn {s t : State} (h : s.PictureInv) (hDraw : CanvasRedrawn s t)
    (hBackground : t.PB.background = s.PB.background) (hFlash : t.FLASH = decide (t.FC / flashPeriod % 2 = 1)) :
    t.PictureInv where
  painted i hi hRegion := by
    rcases hDraw i with hSame | ⟨-, hShown⟩
    · rw [hSame, hBackground]
      exact h.painted i hi hRegion
    · rw [hShown]
      exact .inr (isPalettePixel_shownAt t i)
  border i hi hCanvas hPatch := by
    rw [hDraw.pixel_of_border (Bool.eq_false_iff.mpr hCanvas), hBackground]
    exact h.border i hi hCanvas hPatch
  patch i j hi hj hPatch hPatch' := by
    rw [hDraw.pixel_of_border (not_isCanvas_of_inBorderPatch hPatch),
      hDraw.pixel_of_border (not_isCanvas_of_inBorderPatch hPatch')]
    exact h.patch i j hi hj hPatch hPatch'
  flash := hFlash

/-- Painting the patch in one palette colour keeps the picture invariant. -/
theorem State.PictureInv.paintPatch {s : State} (h : s.PictureInv) {c : Rgba} (hc : IsPalettePixel c) :
    (paintPatch c s).PictureInv where
  painted i hi hRegion := by
    rw [pixel_paintPatch, paintPatch_background]
    split
    case isTrue => exact .inr hc
    case isFalse => exact h.painted i hi hRegion
  border i hi hCanvas hPatch := by
    rw [pixel_paintPatch, if_neg hPatch, paintPatch_background]
    exact h.border i hi hCanvas hPatch
  patch i j _ _ hPatch hPatch' := by
    rw [pixel_paintPatch, pixel_paintPatch, if_pos hPatch, if_pos hPatch']
  flash := by
    rw [paintPatch_FLASH, paintPatch_FC]
    exact h.flash

/-- The result port has no part in the picture. -/
theorem State.PictureInv.respond {s : State} (h : s.PictureInv) (r : Result) : (s.respond r).PictureInv :=
  ⟨h.painted, h.border, h.patch, h.flash⟩

/-- R36: the phase after the counter's next value is that value's phase. -/
theorem nextFlash_of_phase (fc : Nat) :
    nextFlash (fc + 1) (decide (fc / 32 % 2 = 1)) = decide ((fc + 1) / 32 % 2 = 1) := by
  rw [nextFlash_eq, Bool.eq_iff_iff]
  split
  case isTrue => simp only [Bool.not_eq_true', decide_eq_false_iff_not, decide_eq_true_eq]; omega
  case isFalse => simp only [decide_eq_true_eq]; omega

theorem State.PictureInv.newFrame {s : State} (h : s.PictureInv) : (fullRedraw (advanceFrame s)).PictureInv := by
  refine h.of_canvasRedrawn (canvasRedrawn_newFrame s) (fullRedraw_background _) ?_
  rw [fullRedraw_FLASH, fullRedraw_FC, advanceFrame_FLASH, advanceFrame_FC, h.flash]
  exact nextFlash_of_phase s.FC

theorem exec_keeps_pictureInv {i : Instr} {s t : State} (hs : s.PictureInv) (h : exec i s = .next t) :
    t.PictureInv := by
  rcases exec_next_cases h with ⟨-, r, rfl⟩ | ⟨v, -, rfl⟩ | ⟨-, -, ⟨c, k, -, rfl⟩ | ⟨-, rfl⟩ |
    ⟨a, k, d, -, ha, rfl⟩ | ⟨a, k, v, -, ha, rfl⟩⟩
  · exact hs.respond r
  · exact ⟨hs.painted, hs.border, hs.patch, hs.flash⟩
  · exact (hs.paintPatch (isPalettePixel_paletteRgba _ _ _)).respond .none
  · exact hs.newFrame.respond .none
  · refine State.PictureInv.respond (hs.of_canvasRedrawn (canvasRedrawn_bitmapWritten ha k d s)
      (bitmapWritten_background a k d s) ?_) .none
    rw [bitmapWritten_FLASH, bitmapWritten_FC]
    exact hs.flash
  · refine State.PictureInv.respond (hs.of_canvasRedrawn (canvasRedrawn_attrWritten ha k v s)
      (attrWritten_background a k v s) ?_) .none
    rw [attrWritten_FLASH, attrWritten_FC]
    exact hs.flash

/-- Settles O48: an operation redraws canvas pixels from the palette or paints the whole patch, and only `newFrame`
moves the counter and the phase. -/
theorem stepKeepsThePictureInvariant : Obligations.StepKeepsThePictureInvariant :=
  fun _ _ hs h => step_keeps (P := State.PictureInv)
    (fun _ _ hu => ⟨hu.painted, hu.border, hu.patch, hu.flash⟩) (fun _ _ _ => exec_keeps_pictureInv) hs h

/-! ### The constructed block -/

theorem pixel_reset (i : Nat) : State.reset.pixel i = Config.resetPixel := rfl

theorem lineClocks_reset : 1 ≤ State.reset.CL := Nat.succ_pos Config.clPred

/-- Settles O44: no grid entry and no pixel is listed, so each reads as constructed. -/
theorem resetIsTheConstructedBlock : Obligations.ResetIsTheConstructedBlock :=
  ⟨fun _ _ => rfl, fun _ _ => rfl, pixel_reset, rfl, rfl, rfl, rfl, rfl, lineClocks_reset⟩

/-- Settles O45: the empty grids and the empty list of painted pixels are canonical. -/
theorem resetHasTheStateInvariant : Obligations.ResetHasTheStateInvariant where
  bitmap := Memory.wf_nil _
  attrs := Memory.wf_nil _
  buffer := ⟨.nil, fun _ hc => absurd hc List.not_mem_nil⟩
  lineClocks := lineClocks_reset

/-- Settles O47: every pixel is the background, and frame 0 has phase false. -/
theorem resetHasThePictureInvariant : Obligations.ResetHasThePictureInvariant where
  painted i _ _ := .inl (pixel_reset i)
  border i _ _ _ := pixel_reset i
  patch i j _ _ _ _ := (pixel_reset i).trans (pixel_reset j).symm
  flash := rfl

end Sys2Proof.Machine
end

section
/-! PROOFS. The decoder and the step (30_encoding.md R80, R89, R90; 10_state.md R21). -/

namespace Sys2Proof.Machine

/-! ### The decoder -/

/-- Settles O1: the row of each written code is looked up, and no row has the last three. -/
theorem selectCodesDecodeToTheirOperations : Obligations.SelectCodesDecodeToTheirOperations :=
  ⟨rfl, rfl, rfl, rfl, rfl, rfl, rfl, rfl, rfl, rfl, rfl, rfl, rfl, rfl, rfl, rfl⟩

theorem decode_encode (i : Instr) : decode (encode i) = .ok i := by
  cases i <;> rfl

theorem encode_op (i : Instr) : (encode i).op = i.selectCode := by
  cases i <;> rfl

/-- R89: no operand port changes which operation is selected. -/
theorem selectCode_of_decode {t : Transaction} {i : Instr} (h : decode t = .ok i) : i.selectCode = t.op := by
  have hCode : i.selectCode.toNat = t.op.toNat := by
    unfold decode at h
    split at h <;> cases h
    all_goals exact Eq.symm ‹t.op.toNat = _›
  exact BitVec.eq_of_toNat_eq hCode

/-- R90: the codes above the last row are rejected. -/
theorem decode_of_reserved {t : Transaction} (h : 0xD ≤ t.op.toNat) : decode t = .error (.reservedSelect t.op) := by
  have hLast : t.op.toNat = 13 ∨ t.op.toNat = 14 ∨ t.op.toNat = 15 := by
    have := t.op.isLt
    omega
  unfold decode
  rcases hLast with hOp | hOp | hOp <;> simp only [hOp]

/-- Settles O2: each row of the table encodes and decodes alike, and a decoded transaction has its operation's code. -/
theorem decodeOfEncodeIsTheOperation : Obligations.DecodeOfEncodeIsTheOperation :=
  ⟨decode_encode, fun _ i h => (encode_op i).trans (selectCode_of_decode h)⟩

/-! ### The step -/

/-- Settles O3: the operation presented, the idle block, the halted block. -/
theorem stepPerformsThePresentedOperation : Obligations.StepPerformsThePresentedOperation := by
  refine ⟨fun s t rest i hPending hDecode => step_cons_ok hPending hDecode, fun s hPending hFault => ?idle,
    fun s v hPending hFault => ?halted⟩
  case idle => rw [step_nil hPending, gated_of_none hFault]
  case halted => rw [step_nil hPending, gated_of_some hFault]

/-- Settles O4: a reserved code is rejected before any operation; below `0x5800` there is no offset to subtract. -/
theorem callsWithoutMeaningAreRefused : Obligations.CallsWithoutMeaningAreRefused := by
  refine ⟨fun s t rest hPending hCode => step_cons_error hPending (decode_of_reserved hCode), fun s a ha => ?_⟩
  have hBelow := (lt_attrBase_iff a).mpr ha
  rw [exec_attrRowFromAddress, exec_attrColumnFromAddress, if_pos hBelow, if_pos hBelow]
  exact ⟨rfl, rfl⟩

end Sys2Proof.Machine
end

section
/-! PROOFS. The address codec through the machine (40_address_codec.md R111 to R115), and the bitmap addresses as the
names of the bitmap grid's entries (R119). -/

namespace Sys2Proof.Machine

/-! ### Bit operations as arithmetic -/

/-- A field below the lowest bit of a number joins it without a carry. -/
theorem or_eq_add {a b i : Nat} (ha : 2 ^ i ∣ a) (hb : b < 2 ^ i) : a ||| b = a + b := by
  obtain ⟨q, rfl⟩ := ha
  exact (Nat.two_pow_add_eq_or_of_lt hb q).symm

/-- Masking `len` bits from bit `i` keeps that field in its place. -/
theorem and_mask_eq (x len i : Nat) : x &&& (2 ^ len - 1) <<< i = x / 2 ^ i % 2 ^ len * 2 ^ i := by
  apply Nat.eq_of_testBit_eq
  intro j
  rw [Nat.testBit_and, Nat.testBit_shiftLeft, Nat.testBit_two_pow_sub_one, Nat.testBit_mul_two_pow,
    Nat.testBit_mod_two_pow, Nat.testBit_div_two_pow]
  by_cases hj : i ≤ j
  · simp only [Nat.sub_add_cancel hj, ge_iff_le, hj, decide_true, Bool.true_and, Bool.and_comm]
  · simp [hj]

/-! ### The decodes and the encode -/

/-- R111's disjoint fields, in the order the rule lists them. -/
theorem lineFields_eq_add {r m q : Nat} (hr : r < 8) (hm : m < 8) (hq : q < 4) :
    0x4000 ||| r <<< 8 ||| m <<< 5 ||| q <<< 11 = 0x4000 + q * 2048 + r * 256 + m * 32 := by
  calc
    _ = 0x4000 ||| q * 2048 ||| r * 256 ||| m * 32 := by
      simp only [Nat.shiftLeft_eq]
      ac_rfl
    _ = 0x4000 + q * 2048 + r * 256 + m * 32 := by
      rw [or_eq_add (a := 0x4000) (i := 14) (by decide) (by omega),
        or_eq_add (a := 0x4000 + q * 2048) (i := 11) (by omega) (by omega), or_eq_add (i := 8) (by omega) (by omega)]

/-- Settles O5: the line's three fields are disjoint, so joining them adds them. -/
theorem bitmapLineAddressIsTheBitInterleave : Obligations.BitmapLineAddressIsTheBitInterleave := by
  intro line s
  have hLine := line.isLt
  have hAddress : bitmapLineAddress line = BitVec.ofNat 16
      (0x4000 ||| (line.toNat % 8) <<< 8 ||| (line.toNat / 8 % 8) <<< 5 ||| (line.toNat / 64) <<< 11) := by
    apply BitVec.eq_of_toNat_eq
    rw [bitmapLineAddress_toNat, lineFields_eq_add (by omega) (by omega) (by omega), BitVec.toNat_ofNat]
    omega
  rw [← hAddress]
  rfl

/-- R112's second formula, field by field: `h` and `l` are the address's bytes. -/
theorem rowFields_eq_add (h l : Nat) :
    (h &&& 0x07) ||| (l >>> 2 &&& 0x38) ||| (h <<< 3 &&& 0xC0) = h / 8 % 4 * 64 + l / 32 % 8 * 8 + h % 8 := by
  have hLow : h &&& 0x07 = h % 8 := (and_mask_eq h 3 0).trans (by omega)
  have hMiddle : l >>> 2 &&& 0x38 = l / 32 % 8 * 8 := (and_mask_eq (l >>> 2) 3 3).trans (by omega)
  have hHigh : h <<< 3 &&& 0xC0 = h / 8 % 4 * 64 := (and_mask_eq (h <<< 3) 2 6).trans (by omega)
  calc
    _ = h / 8 % 4 * 64 ||| l / 32 % 8 * 8 ||| h % 8 := by
      rw [hLow, hMiddle, hHigh]
      ac_rfl
    _ = h / 8 % 4 * 64 + l / 32 % 8 * 8 + h % 8 := by
      rw [or_eq_add (a := h / 8 % 4 * 64) (i := 6) (by omega) (by omega), or_eq_add (i := 3) (by omega) (by omega)]

/-- Settles O6: the masked and shifted bytes hold the three fields of the line, side by side. -/
theorem bitmapRowReassemblesTheFields : Obligations.BitmapRowReassemblesTheFields := by
  intro a s
  have hRow : bitmapRowFromAddress a = BitVec.ofNat 8
      ((a.toNat / 256 &&& 0x07) ||| ((a.toNat % 256) >>> 2 &&& 0x38) ||| ((a.toNat / 256) <<< 3 &&& 0xC0)) := by
    apply BitVec.eq_of_toNat_eq
    have hThird : a.toNat / 256 / 8 = a.toNat / 2048 := Nat.div_div_eq_div_mul _ 256 8
    have hCharRow : a.toNat % 256 / 32 % 8 = a.toNat / 32 % 8 := by omega
    rw [bitmapRowFromAddress_toNat, rowFields_eq_add, BitVec.toNat_ofNat, hThird, hCharRow]
    omega
  rw [← hRow]
  rfl

/-- Settles O7: five bits are the remainder by 32. -/
theorem bitmapColumnIsTheLowFiveBits : Obligations.BitmapColumnIsTheLowFiveBits := by
  intro a s
  have hColumn : bitmapColumnFromAddress a = BitVec.ofNat 5 (a.toNat % 32) := by
    apply BitVec.eq_of_toNat_eq
    rw [bitmapColumnFromAddress_toNat, BitVec.toNat_ofNat, Nat.mod_mod]
  rw [← hColumn]
  rfl

/-- From `0x5800` on the two subtracting decodes are not refused. -/
theorem not_lt_attrBase {a : Addr} {n : Nat} (h : a.toNat = 0x5800 + n) : ¬ a < attrBase := by
  rw [lt_attrBase_iff]
  omega

/-- Settles O8: the offset is the distance from `0x5800`, a multiple of 32 rows of 32. -/
theorem attrRowIsTheOffsetOver32 : Obligations.AttrRowIsTheOffsetOver32 := by
  intro a n s h
  refine ⟨?row, fun hDomain => by omega⟩
  rw [exec_attrRowFromAddress, if_neg (not_lt_attrBase h), attrRowFromAddress_eq, attrOffset_eq h]
  rfl

/-- Settles O9: the offset is the distance from `0x5800`, a multiple of 32. -/
theorem attrColumnIsTheOffsetModulo32 : Obligations.AttrColumnIsTheOffsetModulo32 := by
  intro a n s h
  refine ⟨?column, by omega⟩
  rw [exec_attrColumnFromAddress, if_neg (not_lt_attrBase h), attrColumnFromAddress, attrOffset_eq h]
  rfl

/-! ### Bitmap addresses and entries -/

/-- R119: the encode puts the fields of a valid address back in their places. -/
theorem bitmapAddress_of_decode {a : Addr} (h : inBitmapRegion a = true) :
    bitmapAddress (bitmapRowFromAddress a) (bitmapColumnFromAddress a) = a := by
  rw [inBitmapRegion_iff] at h
  obtain ⟨hThird, hCharRow, hLine⟩ := line_parts (Nat.mod_lt _ (by decide)) (Nat.mod_lt _ (by decide))
    (bitmapRowFromAddress_toNat a)
  apply BitVec.eq_of_toNat_eq
  rw [bitmapAddress_toNat, hThird, hCharRow, hLine, bitmapColumnFromAddress_toNat]
  exact (address_eq_sum_of_fields h.1 h.2).symm

/-- R119: the decode reads the fields of an encoded address back. -/
theorem decode_of_bitmapAddress (line : BitVec 8) (col : BitVec 5) :
    bitmapRowFromAddress (bitmapAddress line col) = line ∧ bitmapColumnFromAddress (bitmapAddress line col) = col := by
  have hLt := line.isLt
  obtain ⟨hThird, hLine, hCharRow, hColumn⟩ := fields_of_parts (by omega) (by omega) (by omega) col.isLt
    (bitmapAddress_toNat line col)
  refine ⟨BitVec.eq_of_toNat_eq ?row, BitVec.eq_of_toNat_eq ?column⟩
  case row =>
    rw [bitmapRowFromAddress_toNat, hThird, hLine, hCharRow]
    omega
  case column => rw [bitmapColumnFromAddress_toNat, hColumn]

theorem bitmapAddress_inRegion {line : BitVec 8} (h : line.toNat ≤ 191) (col : BitVec 5) :
    0x4000 ≤ (bitmapAddress line col).toNat ∧ (bitmapAddress line col).toNat ≤ 0x57FF := by
  have hColumn := col.isLt
  rw [bitmapAddress_toNat]
  omega

/-- Settles O12: encode and decode invert each other on the region and on the grid. -/
theorem bitmapAddressesAndEntriesCorrespond : Obligations.BitmapAddressesAndEntriesCorrespond := by
  refine ⟨fun a hlo hhi => bitmapAddress_of_decode ((inBitmapRegion_iff a).mpr ⟨hlo, hhi⟩), fun line col h => ?_⟩
  obtain ⟨hlo, hhi⟩ := bitmapAddress_inRegion h col
  exact ⟨hlo, hhi, decode_of_bitmapAddress line col⟩

/-! ### No aliasing -/

theorem bitmapAt_bitmapWritten (a : Addr) (clock : Nat) (d : Byte) (s : State) (line : Nat) {col : Nat}
    (hCol : col < 32) :
    (bitmapWritten a clock d s).bitmapAt line col =
      if line = (bitmapRowFromAddress a).toNat ∧ col = (bitmapColumnFromAddress a).toNat then d
      else s.bitmapAt line col := by
  rw [← bitmapAt_storeBitmap s d (bitmapColumn_lt a) hCol]
  exact bitmapAt_congr (s.storeBitmap _ _ d) _ (bitmapWritten_BM a clock d s) line col

/-- A bitmap write in the region that answers stored its byte. -/
theorem eq_of_exec_writeBitmapByte {a : Addr} (ha : inBitmapRegion a = true) {clock : Nat} {d : Byte} {s t : State}
    (h : exec (.writeBitmapByte a clock d) s = .next t) : t = (bitmapWritten a clock d s).respond .none := by
  have hFault := fault_none_of_next h fun _ hv => (exec_of_halted hv a clock d).2.2.1
  rw [exec_writeBitmapByte hFault ha, Host.Outcome.next.injEq] at h
  exact h.symm

/-- Settles O13: by R119 different valid addresses decode to different entries, so the second write passes over the
first entry. -/
theorem differentBitmapAddressesDoNotAlias : Obligations.DifferentBitmapAddressesDoNotAlias := by
  intro a b k k' d e s t u hab ha ha' hb hb' hFirst hSecond
  have hA := (inBitmapRegion_iff a).mpr ⟨ha, ha'⟩
  have hB := (inBitmapRegion_iff b).mpr ⟨hb, hb'⟩
  have hEntry : ¬ ((bitmapRowFromAddress a).toNat = (bitmapRowFromAddress b).toNat ∧
      (bitmapColumnFromAddress a).toNat = (bitmapColumnFromAddress b).toNat) := by
    rintro ⟨hRow, hColumn⟩
    apply hab
    rw [← bitmapAddress_of_decode hA, ← bitmapAddress_of_decode hB, BitVec.eq_of_toNat_eq hRow,
      BitVec.eq_of_toNat_eq hColumn]
  rw [eq_of_exec_writeBitmapByte hB hSecond, eq_of_exec_writeBitmapByte hA hFirst]
  constructor
  · rw [bitmapAt_respond, bitmapAt_bitmapWritten _ _ _ _ _ (bitmapColumn_lt a), if_neg hEntry, bitmapAt_respond,
      bitmapAt_bitmapWritten _ _ _ _ _ (bitmapColumn_lt a), if_pos ⟨rfl, rfl⟩]
  · rw [bitmapAt_respond, bitmapAt_bitmapWritten _ _ _ _ _ (bitmapColumn_lt b), if_pos ⟨rfl, rfl⟩]

end Sys2Proof.Machine
end

section
/-! PROOFS. Colours, attributes and the palette (41_attribute_palette.md R131 to R135), and the operand parts that have
no effect (30_encoding.md R91). -/

namespace Sys2Proof.Machine

/-! ### Colours and their codes -/

/-- R85: the list of colours in the order of their codes is `colorOfCode`. -/
theorem colorsByCode_getElem? (code : BitVec 3) : colorsByCode[code.toNat]? = some (colorOfCode code) := by
  revert code
  decide

theorem colorCode_colorOfCode (code : BitVec 3) : colorCode (colorOfCode code) = code := by
  revert code
  decide

theorem colorOfCode_colorCode (c : Color) : colorOfCode (colorCode c) = c := by
  cases c <;> rfl

/-- R133's table by the bits of the code. -/
theorem colorRgba_colorOfCode (code : BitVec 3) (bright : Bool) :
    colorRgba (colorOfCode code) bright = rgbaByCode code.toNat bright := by
  revert code bright
  decide

/-- The low three bits of a byte. -/
theorem inkCode_toNat (b : Byte) : (b.extractLsb' 0 3).toNat = b.toNat % 8 := by
  rw [toNat_extract_eq]
  norm_num

/-- The next three bits of a byte. -/
theorem paperCode_toNat (b : Byte) : (b.extractLsb' 3 3).toNat = b.toNat / 8 % 8 := toNat_extract_eq b 3 3

/-- Settles O14: the code's colour, the violation, and the latch that keeps its cause. -/
theorem colorFromBitsGivesTheColourOrLatches : Obligations.ColorFromBitsGivesTheColourOrLatches := by
  refine ⟨fun bits c s hColour => ?colour, fun bits s hCode hFault => ?latch, fun bits s v hCode hFault => ?kept⟩
  case colour =>
    have hCode : bits.toNat < 8 := (List.getElem?_eq_some_iff.mp hColour).1
    have hBits : (bits.extractLsb' 0 3).toNat = bits.toNat := by
      rw [inkCode_toNat, Nat.mod_eq_of_lt hCode]
    rw [← hBits, colorsByCode_getElem?, Option.some.injEq] at hColour
    rw [exec_colorFromBits (Nat.not_lt.mpr (Nat.le_of_lt_succ hCode)), hColour]
    rfl
  case latch => rw [exec_colorFromBits_fault hCode, raise_of_none hFault]
  case kept => rw [exec_colorFromBits_fault hCode, raise_of_some hFault]

/-! ### Attribute bytes -/

theorem getLsbD_six (b : Byte) : b.getLsbD 6 = decide (b.toNat / 64 % 2 = 1) :=
  Nat.testBit_eq_decide_div_mod_eq

theorem getLsbD_seven (b : Byte) : b.getLsbD 7 = decide (b.toNat / 128 = 1) := by
  have hTop : b.toNat / 128 % 2 = b.toNat / 128 := Nat.mod_eq_of_lt (Nat.div_lt_of_lt_mul b.isLt)
  rw [← hTop]
  exact Nat.testBit_eq_decide_div_mod_eq

/-- Settles O15: each field is its slice of the byte. -/
theorem attributeFromByteSplitsTheByte : Obligations.AttributeFromByteSplitsTheByte := by
  intro b ink paper s hInk hPaper
  rw [← inkCode_toNat, colorsByCode_getElem?, Option.some.injEq] at hInk
  rw [← paperCode_toNat, colorsByCode_getElem?, Option.some.injEq] at hPaper
  rw [← hInk, ← hPaper, ← getLsbD_six, ← getLsbD_seven]
  rfl

/-- The byte of an attribute: flash, bright, paper code, ink code, from bit 7 down (30_encoding.md R84). -/
def attributeByte (attr : Attribute) : Byte :=
  BitVec.ofBool attr.flash ++ BitVec.ofBool attr.bright ++ colorCode attr.paper ++ colorCode attr.ink

theorem attributeByte_toNat (attr : Attribute) :
    (attributeByte attr).toNat =
      attr.flash.toNat * 128 + attr.bright.toNat * 64 + (colorCode attr.paper).toNat * 8 +
        (colorCode attr.ink).toNat := by
  simp only [attributeByte, toNat_append_eq, BitVec.toNat_ofBool]
  omega

theorem attributeByte_attributeFromByte (b : Byte) : attributeByte (attributeFromByte b) = b := by
  have hByte := b.isLt
  apply BitVec.eq_of_toNat_eq
  rw [attributeByte_toNat]
  have hFlash : (b.getLsbD 7).toNat = b.toNat / 128 % 2 := Nat.toNat_testBit b.toNat 7
  have hBright : (b.getLsbD 6).toNat = b.toNat / 64 % 2 := Nat.toNat_testBit b.toNat 6
  simp only [attributeFromByte, colorCode_colorOfCode, inkCode_toNat, paperCode_toNat, hFlash, hBright]
  omega

theorem attributeFromByte_attributeByte (attr : Attribute) : attributeFromByte (attributeByte attr) = attr := by
  obtain ⟨ink, paper, bright, flash⟩ := attr
  have hByte := attributeByte_toNat ⟨ink, paper, bright, flash⟩
  have hInkLt := (colorCode ink).isLt
  have hPaperLt := (colorCode paper).isLt
  have hBrightLt := bright.toNat_lt
  have hFlashLt := flash.toNat_lt
  generalize attributeByte ⟨ink, paper, bright, flash⟩ = b at hByte ⊢
  simp only at hByte
  have hInk : b.extractLsb' 0 3 = colorCode ink :=
    BitVec.eq_of_toNat_eq (by rw [inkCode_toNat]; omega)
  have hPaper : b.extractLsb' 3 3 = colorCode paper :=
    BitVec.eq_of_toNat_eq (by rw [paperCode_toNat]; omega)
  have hBright : b.getLsbD 6 = bright := by
    rw [getLsbD_six, Bool.eq_iff_iff, decide_eq_true_iff, ← Bool.toNat_eq_one]
    omega
  have hFlash : b.getLsbD 7 = flash := by
    rw [getLsbD_seven, Bool.eq_iff_iff, decide_eq_true_iff, ← Bool.toNat_eq_one]
    omega
  rw [attributeFromByte, hInk, hPaper, hBright, hFlash, colorOfCode_colorCode, colorOfCode_colorCode]

/-- Settles O16: putting the four fields together is the inverse map. -/
theorem attributeBytesAndAttributesCorrespond : Obligations.AttributeBytesAndAttributesCorrespond :=
  Function.bijective_iff_has_inverse.mpr
    ⟨attributeByte, attributeByte_attributeFromByte, attributeFromByte_attributeByte⟩

/-! ### Pixels by the bits of the attribute byte -/

/-- R134 with R133: the channels of the selected code. -/
theorem paletteRgba_attributeFromByte (b : Byte) (pixelState flashPhase : Bool) :
    paletteRgba (attributeFromByte b) pixelState flashPhase = rgbaByCode
      (if pixelState ≠ (decide (b.toNat / 128 = 1) && flashPhase) then b.toNat % 8 else b.toNat / 8 % 8)
      (decide (b.toNat / 64 % 2 = 1)) := by
  have hFlash : (attributeFromByte b).flash = decide (b.toNat / 128 = 1) := getLsbD_seven b
  have hBright : (attributeFromByte b).bright = decide (b.toNat / 64 % 2 = 1) := getLsbD_six b
  rw [← hFlash, ← hBright]
  split
  case isTrue h => rw [paletteRgba_of_ne h, ← inkCode_toNat, ← colorRgba_colorOfCode]; rfl
  case isFalse h => rw [paletteRgba_of_eq (not_not.mp h), ← paperCode_toNat, ← colorRgba_colorOfCode]; rfl

/-- Settles O18: the pixel on the port, its channels by the selected code. -/
theorem paletteRgbaGivesTheChannels : Obligations.PaletteRgbaGivesTheChannels := by
  intro b pixelState flashPhase s
  rw [exec_paletteRgba, paletteRgba_attributeFromByte]

/-! ### The palette laws -/

/-- Black has one shade. -/
theorem colorRgba_black (bright : Bool) : colorRgba .black bright = ⟨0, 0, 0, 255⟩ := rfl

theorem paletteRgba_of_black {attr : Attribute} {pixelState flashPhase : Bool}
    (h : (if inkSelected attr pixelState flashPhase then attr.ink else attr.paper) = .black) :
    paletteRgba attr pixelState flashPhase = ⟨0, 0, 0, 255⟩ := by
  rw [paletteRgba, h, colorRgba_black]

/-- R135 (b): exchanging ink and paper undoes the pixel state. -/
theorem paletteRgba_swap (attr : Attribute) (flashPhase : Bool) :
    paletteRgba attr true flashPhase =
      paletteRgba { attr with ink := attr.paper, paper := attr.ink } false flashPhase := by
  cases hFlash : attr.flash && flashPhase <;> simp [paletteRgba, inkSelected, hFlash]

/-- The palette's values: the dim row of R133's table, then the bright row without its black. -/
def paletteImage : List Rgba :=
  (List.range 8).map (rgbaByCode · false) ++ (List.range' 1 7).map (rgbaByCode · true)

/-- R135 (c): the values are those of the table, bright black being dim black. -/
theorem mem_paletteImage (p : Rgba) : p ∈ paletteImage ↔ ∃ code bright, code < 8 ∧ rgbaByCode code bright = p := by
  simp only [paletteImage, List.mem_append, List.mem_map, List.mem_range, List.mem_range'_1]
  constructor
  · rintro (⟨code, hCode, rfl⟩ | ⟨code, hCode, rfl⟩)
    · exact ⟨code, false, hCode, rfl⟩
    · exact ⟨code, true, hCode.2, rfl⟩
  · rintro ⟨code, bright, hCode, rfl⟩
    cases bright
    case false => exact .inl ⟨code, hCode, rfl⟩
    case true =>
      cases code
      case zero => exact .inl ⟨0, hCode, rfl⟩
      case succ code => exact .inr ⟨code + 1, ⟨Nat.le_add_left 1 code, hCode⟩, rfl⟩

/-- The table's values are what `paletteRgba` can give: any colour, as the ink of a lit pixel. -/
theorem paletteRgba_image (p : Rgba) :
    (∃ attr pixelState flashPhase, paletteRgba attr pixelState flashPhase = p) ↔
      ∃ code bright, code < 8 ∧ rgbaByCode code bright = p := by
  constructor
  · rintro ⟨attr, pixelState, flashPhase, rfl⟩
    refine ⟨_, _, BitVec.isLt (colorCode (if inkSelected attr pixelState flashPhase then attr.ink else attr.paper)),
      (colorRgba_colorOfCode _ attr.bright).symm.trans ?_⟩
    rw [colorOfCode_colorCode, paletteRgba]
  · rintro ⟨code, bright, hCode, rfl⟩
    refine ⟨⟨colorOfCode (BitVec.ofNat 3 code), .black, bright, false⟩, true, false, ?_⟩
    rw [paletteRgba_of_ne Bool.false_ne_true.symm, colorRgba_colorOfCode, BitVec.toNat_ofNat, Nat.mod_eq_of_lt hCode]

theorem rgbaByCode_alpha (code : Nat) (bright : Bool) : (rgbaByCode code bright).a = 0xFF := rfl

/-- Settles O19: black's one shade, the exchange, and the table without its second black. -/
theorem paletteLaws : Obligations.PaletteLaws := by
  refine ⟨fun attr p f hInk hPaper => paletteRgba_of_black (by rw [hInk, hPaper, ite_self]),
    fun attr p f => paletteRgba_of_black, paletteRgba_swap,
    paletteImage, by decide, rfl, fun p hp => ?alpha, fun p => ?image, mem_paletteImage⟩
  case alpha =>
    obtain ⟨code, bright, -, rfl⟩ := (mem_paletteImage p).mp hp
    exact rgbaByCode_alpha code bright
  case image => rw [mem_paletteImage, paletteRgba_image]

/-! ### Operand parts without effect -/

/-- R91: the border colour is bits 2:0 at the level of bit 6. -/
theorem borderColour_eq (c : Byte) :
    paletteRgba (attributeFromByte c) true false = rgbaByCode (c.toNat % 8) (decide (c.toNat / 64 % 2 = 1)) := by
  rw [paletteRgba_attributeFromByte, Bool.and_false, if_pos (by decide)]

/-- The clock is not read, and the byte only through its colour. -/
theorem exec_setBorder_congr {c c' : Byte}
    (h : paletteRgba (attributeFromByte c) true false = paletteRgba (attributeFromByte c') true false)
    (k k' : Nat) (s : State) : exec (.setBorder c k) s = exec (.setBorder c' k') s := by
  cases hFault : s.FAULT with
  | none => rw [exec_setBorder hFault, exec_setBorder hFault, h]
  | some v => rw [(exec_of_halted hFault 0 k c).1, (exec_of_halted hFault 0 k' c').1]

theorem rgbaByCode_zero (bright bright' : Bool) : rgbaByCode 0 bright = rgbaByCode 0 bright' := rfl

/-- Settles O32: equal selected codes at equal levels give equal pixels, and code 0 has one shade. -/
theorem ignoredOperandPartsHaveNoEffect : Obligations.IgnoredOperandPartsHaveNoEffect := by
  refine ⟨fun c c' k k' s hCode hBright => exec_setBorder_congr ?border k k' s, fun b b' p s hLow => ?flashBit,
    fun b p f f' s hFlash => ?phase, fun b b' p f s hCodes hFlash hBlack => ?bright⟩
  case border => rw [borderColour_eq, borderColour_eq, hCode, hBright]
  case flashBit =>
    have hInk : b.toNat % 8 = b'.toNat % 8 := by omega
    have hPaper : b.toNat / 8 % 8 = b'.toNat / 8 % 8 := by omega
    have hBright : b.toNat / 64 % 2 = b'.toNat / 64 % 2 := by omega
    simp only [exec_paletteRgba, paletteRgba_attributeFromByte, hInk, hPaper, hBright, Bool.and_false]
  case phase =>
    have hClear : b.toNat / 128 = 0 := Nat.div_eq_of_lt hFlash
    simp only [exec_paletteRgba, paletteRgba_attributeFromByte, hClear, Nat.zero_ne_one, decide_false, Bool.false_and]
  case bright =>
    have hInk : b.toNat % 8 = b'.toNat % 8 := by omega
    have hPaper : b.toNat / 8 % 8 = b'.toNat / 8 % 8 := by omega
    rw [exec_paletteRgba, exec_paletteRgba, paletteRgba_attributeFromByte, paletteRgba_attributeFromByte,
      ← hInk, ← hPaper, ← hFlash, hBlack, rgbaByCode_zero]

end Sys2Proof.Machine
end

section
/-! PROOFS. The beam's line and the two gates in its terms (42_beam_timing.md R152 to R156; 70_reset_and_hazards.md
R235). -/

namespace Sys2Proof.Machine

/-! ### The beam's line -/

theorem beamLine_of_lt {cfp clock col : Nat} (h : clock < columnOrigin cfp col) (cl : Nat) :
    beamLine cfp cl clock col = 0 := if_pos h

theorem beamLine_of_le {cfp clock col : Nat} (h : columnOrigin cfp col ≤ clock) (cl : Nat) :
    beamLine cfp cl clock col = (clock - columnOrigin cfp col) / cl + 1 := if_neg (Nat.not_lt.mpr h)

/-- `n` clocks after the column's origin. -/
theorem beamLine_origin_add (cfp cl col n : Nat) : beamLine cfp cl (columnOrigin cfp col + n) col = n / cl + 1 := by
  rw [beamLine_of_le (Nat.le_add_right _ n), Nat.add_sub_cancel_left]

theorem blockTime_le_iff {cfp cl : Nat} (hcl : 1 ≤ cl) (clock line col : Nat) :
    blockTime cfp cl line col ≤ clock ↔ line < beamLine cfp cl clock col := by
  rw [← Nat.not_lt, lt_blockTime_iff hcl, Nat.not_le]

/-- Settles O21: the two cases by definition, the rest by comparing block times with the clock. -/
theorem beamLineIsTheFirstLineAhead : Obligations.BeamLineIsTheFirstLineAhead := by
  intro cfp cl clock col hcl
  have hOrigin := columnOrigin_eq cfp col
  refine ⟨fun h => beamLine_of_lt h cl, fun h => beamLine_of_le h cl, (lt_blockTime_iff hcl _ _ _).mpr (Nat.le_refl _),
    fun h => (blockTime_le_iff hcl _ _ _).mpr (Nat.sub_one_lt_of_lt h), fun line => (lt_blockTime_iff hcl _ _ _).mp,
    beamLine_of_lt (by omega) cl, ?origin, ?lastOfLine, ?nextLine, fun line => ?gate⟩
  case origin =>
    rw [← Nat.add_zero (columnOrigin cfp col), beamLine_origin_add, Nat.zero_div]
  case lastOfLine =>
    rw [Nat.add_sub_assoc hcl, beamLine_origin_add, Nat.div_eq_of_lt (Nat.sub_one_lt_of_lt hcl)]
  case nextLine => rw [beamLine_origin_add, Nat.div_self hcl]
  case gate => rw [bitmapCaught_iff, lt_blockTime_iff hcl]

/-! ### The attribute gate -/

theorem attrBlockTime_eq (cfp cl clock row col : Nat) :
    attrBlockTime cfp cl clock row col =
      if beamLine cfp cl clock col ≤ row * 8 then blockTime cfp cl (row * 8) col
      else if beamLine cfp cl clock col < (row + 1) * 8 then blockTime cfp cl (beamLine cfp cl clock col) col
      else blockTime cfp cl ((row + 1) * 8 - 1) col := rfl

/-- Settles O23: the three thresholds of D8, the gate of R156, and the lines of R155. -/
theorem attributeGateOpensUntilTheBeamHasPassed : Obligations.AttributeGateOpensUntilTheBeamHasPassed := by
  intro cfp cl clock row col hcl
  refine ⟨fun hAbove => ?above, fun hFrom hTo => ?inside, fun hBelow => ?below, attrCaught_iff hcl clock row col,
    fun line => ?lines, fun hFrom hTo => by omega⟩
  case above => rw [attrBlockTime_eq, if_pos hAbove]
  case inside => rw [attrBlockTime_eq, if_neg (Nat.not_le.mpr hFrom), if_pos hTo]
  case below => rw [attrBlockTime_eq, if_neg (by omega), if_neg (Nat.not_lt.mpr hBelow)]
  case lines =>
    rw [mem_attrRedrawLines]
    omega

/-! ### Early and late writes -/

/-- R235: before `CFP + 2` the beam is above every line. -/
theorem beamLine_of_early {cfp clock : Nat} (h : clock < cfp + 2) (cl col : Nat) : beamLine cfp cl clock col = 0 := by
  have hOrigin := columnOrigin_eq cfp col
  exact beamLine_of_lt (by omega) cl

/-- R235: from the last block time on the beam is below every line. -/
theorem beamLine_of_late {cfp cl clock col : Nat} (hcl : 1 ≤ cl) (h : blockTime cfp cl 191 31 ≤ clock)
    (hCol : col ≤ 31) :
    191 < beamLine cfp cl clock col :=
  (blockTime_le_iff hcl clock 191 col).mp ((blockTime_mono_col hCol cfp cl 191).trans h)

/-- Settles O24: the beam above every line leaves both gates open, the beam below line 191 shuts them on the canvas. -/
theorem earlyWritesAreCaughtAndLateOnesAreNot : Obligations.EarlyWritesAreCaughtAndLateOnesAreNot := by
  intro cfp cl clock hcl
  refine ⟨fun hEarly line row col => ?early, fun hLate line row col hLine hRow hCol => ?late⟩
  case early =>
    rw [bitmapCaught_iff, lt_blockTime_iff hcl, attrCaught_iff hcl, attrRedrawLines_eq, beamLine_of_early hEarly]
    exact ⟨Nat.zero_le line, by omega, rfl⟩
  case late =>
    have hBeam := beamLine_of_late hcl hLate hCol
    rw [Bool.eq_false_iff, Bool.eq_false_iff, ne_eq, ne_eq, bitmapCaught_iff, lt_blockTime_iff hcl, attrCaught_iff hcl]
    omega

end Sys2Proof.Machine
end

section
/-! PROOFS. The renderer operations (43_renderer_ops.md R173 to R178): what each completes with, and what it leaves
unchanged. -/

namespace Sys2Proof.Machine

/-- Settles O27: the patch takes the border colour. -/
theorem setBorderPaintsThePatch : Obligations.SetBorderPaintsThePatch := by
  intro c clock s hFault
  refine ⟨_, exec_setBorder hFault c clock, fun i => ?pixels, ?frame⟩
  case pixels =>
    rw [pixel_respond, pixel_paintPatch, borderColour_eq]
    exact if_congr (inBorderPatch_iff i) rfl rfl
  case frame => simp [SameConstants, hFault]

/-- Settles O28: the counter, the phase, and the redraw that follows them. -/
theorem newFrameAdvancesAndRedraws : Obligations.NewFrameAdvancesAndRedraws := by
  intro s hFault
  refine ⟨_, exec_newFrame hFault, ?counter, ?phase,
    fun line col hLine hCol => consistent_respond (consistent_fullRedraw (advanceFrame s) hLine hCol) .none,
    fun i hi => ?border, ?frame⟩
  case counter => rw [respond_FC, fullRedraw_FC, advanceFrame_FC]
  case phase => rw [respond_FLASH, fullRedraw_FLASH, advanceFrame_FLASH, nextFlash_eq]
  case border => rw [pixel_respond, (canvasRedrawn_newFrame s).pixel_of_border hi]
  case frame => simp [SameConstants, hFault]

/-- R175: the caught block's pixels, by R151's formula for its time. -/
theorem pixel_bitmapWritten_inBlock {a : Addr} {clock : Nat} {s : State} {i : Nat}
    (hBlock : InBlock i (bitmapRowFromAddress a).toNat (bitmapColumnFromAddress a).toNat)
    (hClock : clock < blockTime s.CFP s.CL (bitmapRowFromAddress a).toNat (bitmapColumnFromAddress a).toNat)
    (d : Byte) :
    (bitmapWritten a clock d s).pixel i =
      paletteRgba (attributeFromByte (s.attrAt ((bitmapRowFromAddress a).toNat / 8) (bitmapColumnFromAddress a).toNat))
        (d.getLsbD (7 - (i % 320 - 32) % 8)) s.FLASH := by
  rw [pixel_bitmapWritten]
  exact if_pos ⟨(bitmapCaught_iff _ _ _ _ _).mpr hClock, hBlock⟩

/-- R175: the pixels beside the block, or all of them when the write is late. -/
theorem pixel_bitmapWritten_of_not {a : Addr} {clock : Nat} {s : State} {i : Nat}
    (h : ¬ InBlock i (bitmapRowFromAddress a).toNat (bitmapColumnFromAddress a).toNat ∨
      blockTime s.CFP s.CL (bitmapRowFromAddress a).toNat (bitmapColumnFromAddress a).toNat ≤ clock) (d : Byte) :
    (bitmapWritten a clock d s).pixel i = s.pixel i := by
  rw [pixel_bitmapWritten]
  exact if_neg fun ⟨hCaught, hBlock⟩ =>
    h.elim (· hBlock) (Nat.not_le.mpr ((bitmapCaught_iff _ _ _ _ _).mp hCaught))

/-- Settles O29: the gate, the range check, and the accepted write. -/
theorem writeBitmapByteStoresAndRacesTheBeam : Obligations.WriteBitmapByteStoresAndRacesTheBeam := by
  intro a clock d s
  refine ⟨fun v hFault => (exec_of_halted hFault a clock d).2.2.1, fun hFault hRange => ?outside,
    fun hFault hlo hhi => ?inside⟩
  case outside =>
    rw [exec_writeBitmapByte_fault hFault (by rw [inBitmapRegion_iff]; omega), raise_of_none hFault]
  case inside =>
    refine ⟨_, exec_writeBitmapByte hFault ((inBitmapRegion_iff a).mpr ⟨hlo, hhi⟩) clock d, ?effect, ?frame⟩
    case effect =>
      rintro line col rfl rfl
      rw [← blockTime_formula]
      refine ⟨?stored, fun j hj => ?others, fun i hBlock hClock => ?drawn, fun i hi => ?left⟩
      case stored => rw [bitmapAt_respond, bitmapAt_bitmapWritten _ _ _ _ _ (bitmapColumn_lt a), if_pos ⟨rfl, rfl⟩]
      case others => rw [respond_BM, bitmapWritten_BM, Memory.read_write, if_neg hj]
      case drawn => rw [pixel_respond, pixel_bitmapWritten_inBlock hBlock hClock]
      case left => rw [pixel_respond, pixel_bitmapWritten_of_not hi]
    case frame => simp [SameConstants, hFault]

theorem attrAt_attrWritten (a : Addr) (clock : Nat) (v : Byte) (s : State) (row : Nat) {col : Nat} (hCol : col < 32) :
    (attrWritten a clock v s).attrAt row col =
      if row = attrRowFromAddress a ∧ col = (attrColumnFromAddress a).toNat then v else s.attrAt row col := by
  rw [← attrAt_storeAttr s v (attrColumn_lt a) hCol]
  exact attrAt_congr (s.storeAttr _ _ v) _ (attrWritten_AT a clock v s) row col

/-- R176: the pixels of the redrawn lines of the cell, with the gate in R156's form. -/
theorem pixel_attrWritten_inBlock {a : Addr} {clock : Nat} {s : State} (hcl : 1 ≤ s.CL) {i line : Nat}
    (hBlock : InBlock i line (attrColumnFromAddress a).toNat)
    (hGate : beamLine s.CFP s.CL clock (attrColumnFromAddress a).toNat < (attrRowFromAddress a + 1) * 8)
    (hFirst : attrRowFromAddress a * 8 + beamLine s.CFP s.CL clock (attrColumnFromAddress a).toNat % 8 ≤ line)
    (hLast : line < (attrRowFromAddress a + 1) * 8) (v : Byte) :
    (attrWritten a clock v s).pixel i = paletteRgba (attributeFromByte v)
      ((s.bitmapAt line (attrColumnFromAddress a).toNat).getLsbD (7 - (i % 320 - 32) % 8)) s.FLASH := by
  obtain ⟨hLine, hLeft, hRight⟩ := hBlock
  have hRow : i / 320 - 24 = line := by omega
  have hCaught := (attrCaught_iff hcl _ _ _).mpr hGate
  rw [pixel_attrWritten, if_pos ⟨hCaught, by omega, by omega, hLeft, hRight⟩, hRow]

/-- R176: the pixels of no redrawn line. -/
theorem pixel_attrWritten_of_not {a : Addr} {clock : Nat} {s : State} (hcl : 1 ≤ s.CL) {i : Nat}
    (h : ∀ line, InBlock i line (attrColumnFromAddress a).toNat →
      beamLine s.CFP s.CL clock (attrColumnFromAddress a).toNat < (attrRowFromAddress a + 1) * 8 →
      attrRowFromAddress a * 8 + beamLine s.CFP s.CL clock (attrColumnFromAddress a).toNat % 8 ≤ line →
      (attrRowFromAddress a + 1) * 8 ≤ line) (v : Byte) :
    (attrWritten a clock v s).pixel i = s.pixel i := by
  rw [pixel_attrWritten]
  refine if_neg fun ⟨hCaught, hFirst, hLast, hLeft, hRight⟩ => ?_
  have hBelow := h (i / 320 - 24) ⟨by omega, hLeft, hRight⟩ ((attrCaught_iff hcl _ _ _).mp hCaught) (by omega)
  omega

/-- Settles O30: the gate, the range check, and the accepted write, the beam's line by R152. -/
theorem writeAttrByteStoresAndRedrawsTheRest : Obligations.WriteAttrByteStoresAndRedrawsTheRest := by
  intro a clock v s hcl
  refine ⟨fun w hFault => (exec_of_halted hFault a clock v).2.2.2.1, fun hFault hRange => ?outside,
    fun n hFault hn hhi => ?inside⟩
  case outside =>
    rw [exec_writeAttrByte_fault hFault (by rw [inAttrRegion_iff]; omega), raise_of_none hFault]
  case inside =>
    refine ⟨_, exec_writeAttrByte hFault ((inAttrRegion_iff a).mpr ⟨by omega, hhi⟩) clock v,
      fun row col b hRow hCol hBeam => ?effect, ?frame⟩
    case effect =>
      have hBeamLine : b = beamLine s.CFP s.CL clock col := hBeam
      rw [← attrOffset_eq hn, ← attrRowFromAddress_eq] at hRow
      rw [← attrOffset_eq hn, ← attrColumnFromAddress_toNat] at hCol
      subst hRow hCol hBeamLine
      refine ⟨?stored, fun j hj => ?others, fun i line hBlock hGate hFirst hLast => ?drawn, fun i hi => ?left⟩
      case stored => rw [attrAt_respond, attrAt_attrWritten _ _ _ _ _ (attrColumn_lt a), if_pos ⟨rfl, rfl⟩]
      case others => rw [respond_AT, attrWritten_AT, Memory.read_write, if_neg hj]
      case drawn => rw [pixel_respond, pixel_attrWritten_inBlock hcl hBlock hGate hFirst hLast]
      case left => rw [pixel_respond, pixel_attrWritten_of_not hcl hi]
    case frame => simp [SameConstants, hFault]

/-- Settles O31: four bytes for each of the 76800 pixels. -/
theorem cloneTextureReturnsTheWholeBuffer : Obligations.CloneTextureReturnsTheWholeBuffer := by
  intro s hFault
  refine ⟨s.PB.bytes, exec_cloneTexture hFault, bytes_length s.PB, fun i hi => ?_⟩
  exact ⟨bytes_getElem? s.PB hi (k := 0) (by decide), bytes_getElem? s.PB hi (k := 1) (by decide),
    bytes_getElem? s.PB hi (k := 2) (by decide), bytes_getElem? s.PB hi (k := 3) (by decide)⟩

end Sys2Proof.Machine
end

section
/-! PROOFS. Faults (60_exceptions.md R200 to R206): which operations latch one, what fault entry changes, and that
nothing follows it. -/

namespace Sys2Proof.Machine

/-- Settles O33: the three causes of R201 with their operands. -/
theorem faultEntryLatchesAndChangesNothingElse : Obligations.FaultEntryLatchesAndChangesNothingElse := by
  intro s hFault
  refine ⟨fun a k d hRange => ⟨.bitmapAddress a, ?bitmap, rfl, rfl⟩,
    fun a k d hRange => ⟨.attrAddress a, ?attr, rfl, rfl⟩, fun bits hCode => ⟨.colorCode bits, ?code, rfl, rfl⟩⟩
  case bitmap =>
    rw [exec_writeBitmapByte_fault hFault (by rw [inBitmapRegion_iff]; omega), raise_of_none hFault]
  case attr =>
    rw [exec_writeAttrByte_fault hFault (by rw [inAttrRegion_iff]; omega), raise_of_none hFault]
  case code => rw [exec_colorFromBits_fault hCode, raise_of_none hFault]

/-- Settles O35: each renderer operation stands behind the gate. -/
theorem haltedBlockPerformsNoRendererOperation : Obligations.HaltedBlockPerformsNoRendererOperation := by
  intro s v hFault
  exact ⟨fun c k => (exec_of_halted hFault 0 k c).1, (exec_of_halted hFault 0 0 0).2.1,
    fun a k d => (exec_of_halted hFault a k d).2.2.1, fun a k d => (exec_of_halted hFault a k d).2.2.2.1,
    (exec_of_halted hFault 0 0 0).2.2.2.2⟩

/-- In a block without a fault an operation answers, unless it is a subtracting decode below `0x5800`. -/
theorem exec_next_or_refused {s : State} (hFault : s.FAULT = none) (i : Instr) :
    (∃ t, exec i s = .next t) ∨
    ∃ a, a < attrBase ∧ (i = .attrRowFromAddress a ∨ i = .attrColumnFromAddress a) ∧
      exec i s = .refused (.belowAttrBase a) := by
  cases i with
  | bitmapLineAddress line => exact .inl ⟨_, rfl⟩
  | bitmapRowFromAddress a => exact .inl ⟨_, rfl⟩
  | bitmapColumnFromAddress a => exact .inl ⟨_, rfl⟩
  | attrRowFromAddress a =>
    by_cases ha : a < attrBase
    · exact .inr ⟨a, ha, .inl rfl, (exec_attrRowFromAddress a s).trans (if_pos ha)⟩
    · exact .inl ⟨_, (exec_attrRowFromAddress a s).trans (if_neg ha)⟩
  | attrColumnFromAddress a =>
    by_cases ha : a < attrBase
    · exact .inr ⟨a, ha, .inr rfl, (exec_attrColumnFromAddress a s).trans (if_pos ha)⟩
    · exact .inl ⟨_, (exec_attrColumnFromAddress a s).trans (if_neg ha)⟩
  | colorFromBits bits =>
    by_cases hCode : 7 < bits.toNat
    · exact .inl ⟨_, exec_colorFromBits_fault hCode s⟩
    · exact .inl ⟨_, exec_colorFromBits hCode s⟩
  | attributeFromByte b => exact .inl ⟨_, rfl⟩
  | paletteRgba b p f => exact .inl ⟨_, rfl⟩
  | setBorder c k => exact .inl ⟨_, exec_setBorder hFault c k⟩
  | newFrame => exact .inl ⟨_, exec_newFrame hFault⟩
  | writeBitmapByte a k d =>
    by_cases ha : inBitmapRegion a = true
    · exact .inl ⟨_, exec_writeBitmapByte hFault ha k d⟩
    · exact .inl ⟨_, exec_writeBitmapByte_fault hFault ha k d⟩
  | writeAttrByte a k v =>
    by_cases ha : inAttrRegion a = true
    · exact .inl ⟨_, exec_writeAttrByte hFault ha k v⟩
    · exact .inl ⟨_, exec_writeAttrByte_fault hFault ha k v⟩
  | cloneTexture => exact .inl ⟨_, exec_cloneTexture hFault⟩

/-- R200: the two kinds of contract violation, an address out of range and a colour code above 7. -/
theorem violationOf_ne_none_iff (i : Instr) :
    violationOf i ≠ none ↔
      (∃ a k d, i = .writeBitmapByte a k d ∧ (a.toNat < 0x4000 ∨ 0x57FF < a.toNat)) ∨
      (∃ a k d, i = .writeAttrByte a k d ∧ (a.toNat < 0x5800 ∨ 0x5AFF < a.toNat)) ∨
      (∃ bits, i = .colorFromBits bits ∧ 7 < bits.toNat) := by
  cases i
  case writeBitmapByte a k d => simp [violationOf, imp_iff_not_or]
  case writeAttrByte a k v => simp [violationOf, imp_iff_not_or]
  all_goals simp [violationOf]

/-- R203: an operation that leaves a fault commits no other change and gives no result. -/
theorem eq_of_exec_fault {i : Instr} {s t : State} (hFault : s.FAULT = none) (h : exec i s = .next t)
    (ht : t.FAULT ≠ none) : t = { s with FAULT := t.FAULT, result := .none } := by
  rw [FAULT_of_exec hFault h] at ht
  rcases exec_next_cases h with ⟨hNone, -⟩ | ⟨v, -, rfl⟩ | ⟨-, hNone, -⟩
  · exact absurd hNone ht
  · rfl
  · exact absurd hNone ht

/-- R204, R206: in a halted block an operation that answers changes at most the result port. -/
theorem exec_of_latched {i : Instr} {s t : State} {v : Violation} (hFault : s.FAULT = some v)
    (h : exec i s = .next t) : ∃ r, t = s.respond r := by
  rcases exec_next_cases h with ⟨-, hRespond⟩ | ⟨w, -, rfl⟩ | ⟨hNone, -⟩
  · exact hRespond
  · exact ⟨.none, raise_of_some hFault w⟩
  · rw [hFault] at hNone
    cases hNone

/-- Settles O34: the latch is the operation's violation, and a latched one stays. -/
theorem exactlyTwoKindsOfFault : Obligations.ExactlyTwoKindsOfFault := by
  refine ⟨fun i s hFault => ⟨fun r hr => ?stop, fun t h => ⟨?latch, eq_of_exec_fault hFault h⟩⟩,
    fun i s t v hFault h => ?kept⟩
  case stop =>
    rcases exec_next_or_refused hFault i with ⟨t, h⟩ | ⟨a, -, -, h⟩
    · rw [h] at hr; cases hr
    · rw [h] at hr; cases hr
  case latch => rw [FAULT_of_exec hFault h, violationOf_ne_none_iff]
  case kept =>
    obtain ⟨r, rfl⟩ := exec_of_latched hFault h
    exact hFault

/-- Settles O36: the idle step needs a block without a fault, and an operation only answers on the result port. -/
theorem faultedStateNeverChanges : Obligations.FaultedStateNeverChanges := by
  intro s t v hFault h
  rcases step_next_cases h with ⟨-, hNone, -⟩ | ⟨_, rest, i, -, -, hi⟩
  · rw [hFault] at hNone
    cases hNone
  · obtain ⟨r, rfl⟩ := exec_of_latched (s := { s with pending := rest }) hFault hi
    rfl

end Sys2Proof.Machine
end

section
/-! PROOFS. Which operation can change each piece of state (10_state.md sections 2 and 3; R33): the grids, the counter
and the phase, the pixels, and the consistency of a block. -/

namespace Sys2Proof.Machine

/-! ### One writer each -/

theorem exec_BM_cases {i : Instr} {s t : State} (h : exec i s = .next t) :
    t.BM = s.BM ∨ ∃ a k d, i = .writeBitmapByte a k d ∧ inBitmapRegion a = true ∧
      t = (bitmapWritten a k d s).respond .none := by
  rcases exec_next_cases h with ⟨-, r, rfl⟩ | ⟨v, -, rfl⟩ | ⟨-, -, ⟨c, k, -, rfl⟩ | ⟨-, rfl⟩ |
    ⟨a, k, d, rfl, ha, rfl⟩ | ⟨a, k, v, -, -, rfl⟩⟩
  · exact .inl rfl
  · exact .inl rfl
  · exact .inl ((respond_BM _ _).trans (paintPatch_BM s _))
  · exact .inl ((respond_BM _ _).trans (fullRedraw_BM _))
  · exact .inr ⟨a, k, d, rfl, ha, rfl⟩
  · exact .inl ((respond_BM _ _).trans (attrWritten_BM a k v s))

theorem exec_AT_cases {i : Instr} {s t : State} (h : exec i s = .next t) :
    t.AT = s.AT ∨ ∃ a k v, i = .writeAttrByte a k v ∧ inAttrRegion a = true ∧
      t = (attrWritten a k v s).respond .none := by
  rcases exec_next_cases h with ⟨-, r, rfl⟩ | ⟨v, -, rfl⟩ | ⟨-, -, ⟨c, k, -, rfl⟩ | ⟨-, rfl⟩ |
    ⟨a, k, d, -, -, rfl⟩ | ⟨a, k, v, rfl, ha, rfl⟩⟩
  · exact .inl rfl
  · exact .inl rfl
  · exact .inl ((respond_AT _ _).trans (paintPatch_AT s _))
  · exact .inl ((respond_AT _ _).trans (fullRedraw_AT _))
  · exact .inl ((respond_AT _ _).trans (bitmapWritten_AT a k d s))
  · exact .inr ⟨a, k, v, rfl, ha, rfl⟩

/-- R174: `newFrame` counts, and the phase follows the counter; every other operation leaves both. -/
theorem exec_frame_cases {i : Instr} {s t : State} (h : exec i s = .next t) :
    (i ≠ .newFrame ∧ t.FC = s.FC ∧ t.FLASH = s.FLASH) ∨
    (i = .newFrame ∧ t = (fullRedraw (advanceFrame s)).respond .none) := by
  by_cases hFrame : i = .newFrame
  · subst hFrame
    have hFault := fault_none_of_next h fun _ hv => (exec_of_halted hv 0 0 0).2.1
    rw [exec_newFrame hFault, Host.Outcome.next.injEq] at h
    exact .inr ⟨rfl, h.symm⟩
  · refine .inl ⟨hFrame, ?_⟩
    rcases exec_next_cases h with ⟨-, r, rfl⟩ | ⟨v, -, rfl⟩ | ⟨-, -, ⟨c, k, -, rfl⟩ | ⟨rfl, -⟩ |
      ⟨a, k, d, -, -, rfl⟩ | ⟨a, k, v, -, -, rfl⟩⟩
    · exact ⟨rfl, rfl⟩
    · exact ⟨rfl, rfl⟩
    · rw [respond_FC, respond_FLASH]
      exact ⟨paintPatch_FC s _, paintPatch_FLASH s _⟩
    · exact absurd rfl hFrame
    · rw [respond_FC, respond_FLASH]
      exact ⟨bitmapWritten_FC a k d s, bitmapWritten_FLASH a k d s⟩
    · rw [respond_FC, respond_FLASH]
      exact ⟨attrWritten_FC a k v s, attrWritten_FLASH a k v s⟩

/-- R206: the latch is set once, by a contract violation. -/
theorem exec_FAULT_cases {i : Instr} {s t : State} (h : exec i s = .next t) :
    t.FAULT = s.FAULT ∨ (s.FAULT = none ∧ violationOf i ≠ none) := by
  cases hFault : s.FAULT with
  | some v =>
    obtain ⟨r, rfl⟩ := exec_of_latched hFault h
    exact .inl hFault
  | none =>
    rw [FAULT_of_exec hFault h]
    exact (eq_or_ne _ _).imp_right fun hViolation => ⟨rfl, hViolation⟩

/-- Settles O37: one writer for each piece of state. -/
theorem eachPieceOfStateHasItsWriters : Obligations.EachPieceOfStateHasItsWriters := by
  intro i s t h
  refine ⟨fun hBM => ?bitmap, fun hAT => ?attrs, fun p hp => ?pixels, fun hFlash => ?phase, fun hFC => ?counter,
    fun hFault => (exec_FAULT_cases h).resolve_left hFault, exec_sameConstants h⟩
  case bitmap =>
    obtain ⟨a, k, d, hi, -⟩ := (exec_BM_cases h).resolve_left hBM
    exact ⟨a, k, d, hi⟩
  case attrs =>
    obtain ⟨a, k, v, hi, -⟩ := (exec_AT_cases h).resolve_left hAT
    exact ⟨a, k, v, hi⟩
  case pixels => exact (exec_pixel_cases h hp).imp_left fun ⟨hCanvas, hDraws, _⟩ => ⟨hCanvas, hDraws⟩
  case phase => exact ((exec_frame_cases h).resolve_left fun hSame => hFlash hSame.2.2).1
  case counter => exact ((exec_frame_cases h).resolve_left fun hSame => hFC hSame.2.1).1

/-! ### The region discipline -/

theorem inBlock_bounds {p line col : Nat} (hLine : line ≤ 191) (hCol : col ≤ 31) (h : InBlock p line col) :
    32 ≤ p % 320 ∧ p % 320 ≤ 287 ∧ 24 ≤ p / 320 ∧ p / 320 ≤ 215 := by
  unfold InBlock at h
  omega

/-- Settles O38: a changed pixel is either drawn in the canvas or painted in the patch, and the two are apart. -/
theorem borderAndCanvasHaveSeparateWriters : Obligations.BorderAndCanvasHaveSeparateWriters := by
  refine ⟨fun i s t p h _ hp => ?_, fun p line col => inBlock_bounds⟩
  rcases exec_pixel_cases h hp with ⟨hCanvas, hDraws, hShown⟩ | ⟨hPatch, hBorder⟩
  · rw [isCanvas_iff] at hCanvas
    exact ⟨fun hOutside => by omega, fun _ _ _ _ => ⟨hDraws, hShown⟩⟩
  · rw [inBorderPatch_iff] at hPatch
    exact ⟨fun _ => ⟨hBorder, hPatch⟩, fun hInside _ _ _ => by omega⟩

/-! ### Staleness -/

/-- An operation that leaves what a block should show leaves the block consistent: it changes canvas pixels only to what
they should show. -/
theorem consistent_of_shownPixel_eq {i : Instr} {s t : State} (h : exec i s = .next t) {line col : Nat}
    (hLine : line < 192) (hCol : col < 32) (hShown : ∀ k, t.shownPixel line col k = s.shownPixel line col k)
    (hs : s.Consistent line col) : t.Consistent line col := by
  intro k hk
  by_cases hSame : t.pixel (pixelIndex (borderX + 8 * col + k) (borderY + line)) =
      s.pixel (pixelIndex (borderX + 8 * col + k) (borderY + line))
  · rw [hSame, hShown, hs k hk]
  · rcases exec_pixel_cases h hSame with ⟨-, -, hDrawn⟩ | ⟨hPatch, -⟩
    · rw [hDrawn, State.shownAt, pixelIndex_eq, borderX, borderY]
      congr 1 <;> omega
    · rw [inBorderPatch_iff, pixelIndex_eq, borderX, borderY] at hPatch
      omega

theorem consistent_bitmapWritten {a : Addr} {clock : Nat} {s : State}
    (hClock : clock < blockTime s.CFP s.CL (bitmapRowFromAddress a).toNat (bitmapColumnFromAddress a).toNat)
    (d : Byte) :
    (bitmapWritten a clock d s).Consistent (bitmapRowFromAddress a).toNat (bitmapColumnFromAddress a).toNat := by
  rw [bitmapWritten_eq_of_caught a clock d s ((bitmapCaught_iff _ _ _ _ _).mpr hClock)]
  exact consistent_updateBlock _ (bitmapColumn_lt a)

/-- R176: a caught attribute write leaves the redrawn lines consistent. -/
theorem consistent_attrWritten {a : Addr} {clock : Nat} {s : State} {line : Nat}
    (hCaught : attrCaught s.CFP s.CL clock (attrRowFromAddress a) (attrColumnFromAddress a).toNat = true)
    (hLine : line ∈ attrRedrawLines s.CFP s.CL clock (attrRowFromAddress a) (attrColumnFromAddress a).toNat)
    (v : Byte) :
    (attrWritten a clock v s).Consistent line (attrColumnFromAddress a).toNat := by
  intro k hk
  have hCol := attrColumn_lt a
  rw [attrRedrawLines_eq, List.mem_range'_1] at hLine
  rw [attrWritten_eq_of_caught a clock v s hCaught, attrRedrawLines_eq, pixelIndex_eq, borderX, borderY,
    pixel_updateLines _ hCol, if_pos (by omega),
    shownPixel_congr _ (updateLines _ _ _) (updateLines_BM _ _ _) (updateLines_AT _ _ _) (updateLines_FLASH _ _ _)]
  congr 1 <;> omega

/-- Settles O39: a block that should show the same stays consistent, so its byte, its attribute or the phase changed;
`newFrame` and a write that redraws the block leave it consistent. -/
theorem blocksBecomeStaleOnlyByWritesThatDoNotRedrawThem :
    Obligations.BlocksBecomeStaleOnlyByWritesThatDoNotRedrawThem := by
  intro i s t line col hLine hCol hs h hStale
  rcases exec_frame_cases h with ⟨-, -, hFlash⟩ | ⟨-, rfl⟩
  case inr => exact absurd (consistent_respond (consistent_fullRedraw (advanceFrame s) hLine hCol) .none) hStale
  by_cases hByte : t.bitmapAt line col = s.bitmapAt line col
  · have hAttr : t.attrAt (line / 8) col ≠ s.attrAt (line / 8) col := fun hAttr => hStale
      (consistent_of_shownPixel_eq h hLine hCol (fun k => by unfold State.shownPixel; rw [hByte, hAttr, hFlash]) hs)
    obtain ⟨a, k, v, rfl, -, rfl⟩ := (exec_AT_cases h).resolve_left fun hAT => hAttr (attrAt_congr s t hAT _ _)
    rw [attrAt_respond, attrAt_attrWritten a k v s _ hCol, ne_eq, ite_eq_right_iff, Classical.not_imp] at hAttr
    obtain ⟨⟨hRow, rfl⟩, -⟩ := hAttr
    refine .inr ⟨a, k, v, rfl, hRow.symm, rfl, ?_⟩
    rw [hRow, ← Bool.not_eq_true, ← not_and_or]
    exact fun ⟨hCaught, hMem⟩ => hStale (consistent_respond (consistent_attrWritten hCaught hMem v) .none)
  · obtain ⟨a, k, d, rfl, -, rfl⟩ := (exec_BM_cases h).resolve_left fun hBM => hByte (bitmapAt_congr s t hBM _ _)
    rw [bitmapAt_respond, bitmapAt_bitmapWritten a k d s _ hCol, ite_eq_right_iff, Classical.not_imp] at hByte
    obtain ⟨⟨rfl, rfl⟩, -⟩ := hByte
    refine .inl ⟨a, k, d, rfl, rfl, rfl, Nat.not_lt.mp fun hClock => ?_⟩
    exact hStale (consistent_respond (consistent_bitmapWritten hClock d) .none)

end Sys2Proof.Machine
end

section
/-! PROOFS. Repeating an operation (20_memory.md R59), and what `newFrame` forgets (70_reset_and_hazards.md R235). -/

namespace Sys2Proof.Machine

/-! ### The result port is never read -/

section respond
variable (s : State) (r : Result)

theorem paintPatch_respond (c : Rgba) : paintPatch c (s.respond r) = (paintPatch c s).respond r := by
  simp only [paintPatch, State.respond]

theorem drawLine_respond : drawLine (s.respond r) = drawLine s := rfl

theorem fullRedraw_respond : fullRedraw (s.respond r) = (fullRedraw s).respond r := by
  rw [fullRedraw, fullRedraw, drawLine_respond, respond_PB, State.respond, State.respond]

theorem bitmapWritten_respond (a : Addr) (clock : Nat) (d : Byte) :
    bitmapWritten a clock d (s.respond r) = (bitmapWritten a clock d s).respond r := by
  by_cases h : bitmapCaught s.CFP s.CL clock (bitmapRowFromAddress a).toNat (bitmapColumnFromAddress a).toNat = true
  · rw [bitmapWritten_eq_of_caught a clock d s h, bitmapWritten_eq_of_caught a clock d (s.respond r) h]
    rfl
  · rw [bitmapWritten_eq_of_late a clock d s h, bitmapWritten_eq_of_late a clock d (s.respond r) h]
    rfl

theorem attrWritten_respond (a : Addr) (clock : Nat) (v : Byte) :
    attrWritten a clock v (s.respond r) = (attrWritten a clock v s).respond r := by
  by_cases h : attrCaught s.CFP s.CL clock (attrRowFromAddress a) (attrColumnFromAddress a).toNat = true
  · rw [attrWritten_eq_of_caught a clock v s h, attrWritten_eq_of_caught a clock v (s.respond r) h, updateLines_eq,
      updateLines_eq]
    rfl
  · rw [attrWritten_eq_of_late a clock v s h, attrWritten_eq_of_late a clock v (s.respond r) h]
    rfl

/-- The gate does not read the port either. -/
theorem gated_respond {op : State → Host.Outcome State Fault Refusal} (h : op (s.respond r) = op s) :
    gated (s.respond r) op = gated s op := by
  rw [gated, gated, h, respond_FAULT]

/-- Only the last answer stands on the port. -/
theorem respond_respond (q : Result) : (s.respond r).respond q = s.respond q := rfl

/-- An operation answers the same whatever the previous one left on the port. -/
theorem exec_respond (i : Instr) : exec i (s.respond r) = exec i s := by
  cases i with
  | setBorder c k =>
    show execSetBorder c k (s.respond r) = execSetBorder c k s
    unfold execSetBorder
    exact gated_respond s r (by rw [paintPatch_respond, respond_respond])
  | newFrame =>
    show execNewFrame (s.respond r) = execNewFrame s
    have hAdvance : advanceFrame (s.respond r) = (advanceFrame s).respond r := rfl
    unfold execNewFrame
    exact gated_respond s r (by rw [hAdvance, fullRedraw_respond, respond_respond])
  | writeBitmapByte a k d =>
    show execWriteBitmapByte a k d (s.respond r) = execWriteBitmapByte a k d s
    unfold execWriteBitmapByte
    exact gated_respond s r (by rw [bitmapWritten_respond, respond_respond]; rfl)
  | writeAttrByte a k v =>
    show execWriteAttrByte a k v (s.respond r) = execWriteAttrByte a k v s
    unfold execWriteAttrByte
    exact gated_respond s r (by rw [attrWritten_respond, respond_respond]; rfl)
  | cloneTexture =>
    show execCloneTexture (s.respond r) = execCloneTexture s
    unfold execCloneTexture
    exact gated_respond s r rfl
  | _ => rfl

end respond

/-! ### States that differ in the buffer alone -/

/-- Two states with canonical buffers over one background that differ in no read pixel and nowhere else are equal. -/
theorem eq_of_pixel_eq {s t : State} (hRest : t = { s with PB := t.PB }) (ht : t.PB.wf) (hs : s.PB.wf)
    (hBackground : t.PB.background = s.PB.background) (hPixel : ∀ i, t.pixel i = s.pixel i) : t = s := by
  rw [PixelBuffer.ext_of_wf ht hs hBackground hPixel] at hRest
  exact hRest

theorem paintPatch_eq_withPB (c : Rgba) (s : State) : paintPatch c s = { s with PB := (paintPatch c s).PB } := by
  rw [paintPatch_PB, paintPatch]

theorem bitmapWritten_eq_withPB (a : Addr) (clock : Nat) (d : Byte) (s : State) :
    bitmapWritten a clock d s =
      { s.storeBitmap (bitmapRowFromAddress a).toNat (bitmapColumnFromAddress a).toNat d with
        PB := (bitmapWritten a clock d s).PB } := by
  unfold bitmapWritten
  simp only
  split <;> rfl

theorem attrWritten_eq_withPB (a : Addr) (clock : Nat) (v : Byte) (s : State) :
    attrWritten a clock v s =
      { s.storeAttr (attrRowFromAddress a) (attrColumnFromAddress a).toNat v with
        PB := (attrWritten a clock v s).PB } := by
  unfold attrWritten
  simp only
  split
  case isTrue => rw [updateLines_eq]
  case isFalse => rfl

/-! ### Doing it twice -/

theorem Memory.write_idem (m : Memory) (i : Nat) (b : Byte) : (m.write i b).write i b = m.write i b :=
  writeRun_idem unlistedByte i [b] m

theorem paintPatch_idem {s : State} (hs : s.PB.wf) (c : Rgba) : paintPatch c (paintPatch c s) = paintPatch c s := by
  refine eq_of_pixel_eq (paintPatch_eq_withPB c _) (wf_paintPatch (wf_paintPatch hs c) c) (wf_paintPatch hs c)
    (paintPatch_background c _) fun i => ?_
  rw [pixel_paintPatch, pixel_paintPatch]
  split <;> rfl

theorem bitmapWritten_idem {s : State} (hs : s.PB.wf) {a : Addr} (ha : inBitmapRegion a = true) (clock : Nat)
    (d : Byte) :
    bitmapWritten a clock d (bitmapWritten a clock d s) = bitmapWritten a clock d s := by
  have hWritten := wf_bitmapWritten hs ha clock d
  refine eq_of_pixel_eq ?rest (wf_bitmapWritten hWritten ha clock d) hWritten (bitmapWritten_background _ _ _ _)
    fun i => ?pixel
  case rest =>
    have hStored : (bitmapWritten a clock d s).storeBitmap (bitmapRowFromAddress a).toNat
        (bitmapColumnFromAddress a).toNat d = bitmapWritten a clock d s := by
      rw [State.storeBitmap, bitmapWritten_BM, Memory.write_idem, ← bitmapWritten_BM a clock d s]
    have hPB := bitmapWritten_eq_withPB a clock d (bitmapWritten a clock d s)
    rw [hStored] at hPB
    exact hPB
  case pixel =>
    rw [pixel_bitmapWritten a clock d (bitmapWritten a clock d s), bitmapWritten_CFP, bitmapWritten_CL,
      bitmapWritten_FLASH, attrAt_congr s _ (bitmapWritten_AT a clock d s), pixel_bitmapWritten a clock d s]
    split <;> rfl

theorem attrWritten_idem {s : State} (hs : s.PB.wf) {a : Addr} (ha : inAttrRegion a = true) (clock : Nat)
    (v : Byte) :
    attrWritten a clock v (attrWritten a clock v s) = attrWritten a clock v s := by
  have hWritten := wf_attrWritten hs ha clock v
  refine eq_of_pixel_eq ?rest (wf_attrWritten hWritten ha clock v) hWritten (attrWritten_background _ _ _ _)
    fun i => ?pixel
  case rest =>
    have hStored : (attrWritten a clock v s).storeAttr (attrRowFromAddress a) (attrColumnFromAddress a).toNat v =
        attrWritten a clock v s := by
      rw [State.storeAttr, attrWritten_AT, Memory.write_idem, ← attrWritten_AT a clock v s]
    have hPB := attrWritten_eq_withPB a clock v (attrWritten a clock v s)
    rw [hStored] at hPB
    exact hPB
  case pixel =>
    rw [pixel_attrWritten a clock v (attrWritten a clock v s), attrWritten_CFP, attrWritten_CL,
      attrWritten_FLASH, bitmapAt_congr s _ (attrWritten_BM a clock v s), pixel_attrWritten a clock v s]
    split <;> rfl

/-- Settles O40: an operation reads nothing that it wrote but to write it again; `newFrame` counts. -/
theorem repeatedOperationsAreIdempotent : Obligations.RepeatedOperationsAreIdempotent := by
  refine ⟨fun i s t hs hi h hFault => ?repeated, fun s t _ h => ?counted⟩
  case counted =>
    rcases exec_frame_cases h with ⟨hNot, -⟩ | ⟨-, ht⟩
    · exact hNot rfl
    · have hFC := congrArg State.FC ht
      rw [respond_FC, fullRedraw_FC, advanceFrame_FC] at hFC
      omega
  case repeated =>
    rcases exec_next_cases h with ⟨-, r, rfl⟩ | ⟨v, -, rfl⟩ | ⟨hNone, -, ⟨c, k, rfl, rfl⟩ | ⟨rfl, -⟩ |
      ⟨a, k, d, rfl, ha, rfl⟩ | ⟨a, k, v, rfl, ha, rfl⟩⟩
    · rw [exec_respond, h]
    · cases hFault
    · rw [exec_respond, exec_setBorder ((paintPatch_FAULT s _).trans hNone), paintPatch_idem hs.buffer]
    · exact absurd rfl hi
    · rw [exec_respond, exec_writeBitmapByte ((bitmapWritten_FAULT a k d s).trans hNone) ha,
        bitmapWritten_idem hs.buffer ha]
    · rw [exec_respond, exec_writeAttrByte ((attrWritten_FAULT a k v s).trans hNone) ha,
        attrWritten_idem hs.buffer ha]

/-! ### What a new frame forgets -/

/-- `newFrame` draws the canvas anew, so it forgets what a buffer showed there. -/
theorem newFrame_withPB {s : State} {pb : PixelBuffer} (hs : s.PB.wf) (hpb : pb.wf)
    (hBackground : pb.background = s.PB.background) (hBorder : ∀ i, isCanvas i = false → pb.read i = s.pixel i) :
    fullRedraw (advanceFrame { s with PB := pb }) = fullRedraw (advanceFrame s) := by
  refine eq_of_pixel_eq ?rest (wf_fullRedraw (s := advanceFrame { s with PB := pb }) hpb)
    (wf_fullRedraw (s := advanceFrame s) hs) ?background fun i => ?pixel
  case rest => simp only [fullRedraw, advanceFrame]
  case background => rw [fullRedraw_background, fullRedraw_background, advanceFrame_PB, advanceFrame_PB, hBackground]
  case pixel =>
    rw [pixel_newFrame, pixel_newFrame]
    cases hi : isCanvas i
    case false => exact hBorder i hi
    case true => rfl

/-- R235: after a bitmap write `newFrame` answers as after the store alone. -/
theorem exec_newFrame_bitmapWritten {s : State} (hs : s.PB.wf) (hFault : s.FAULT = none) {a : Addr}
    (ha : inBitmapRegion a = true) (clock : Nat) (d : Byte) :
    exec .newFrame ((bitmapWritten a clock d s).respond .none) =
      exec .newFrame (s.storeBitmap (bitmapRowFromAddress a).toNat (bitmapColumnFromAddress a).toNat d) := by
  rw [exec_respond, exec_newFrame ((bitmapWritten_FAULT a clock d s).trans hFault),
    exec_newFrame (s := s.storeBitmap _ _ d) hFault, bitmapWritten_eq_withPB,
    newFrame_withPB (s := s.storeBitmap _ _ d) hs (wf_bitmapWritten hs ha clock d)
      (bitmapWritten_background a clock d s) fun i => (canvasRedrawn_bitmapWritten ha clock d s).pixel_of_border]

/-- R235: after an attribute write `newFrame` answers as after the store alone. -/
theorem exec_newFrame_attrWritten {s : State} (hs : s.PB.wf) (hFault : s.FAULT = none) {a : Addr}
    (ha : inAttrRegion a = true) (clock : Nat) (v : Byte) :
    exec .newFrame ((attrWritten a clock v s).respond .none) =
      exec .newFrame (s.storeAttr (attrRowFromAddress a) (attrColumnFromAddress a).toNat v) := by
  rw [exec_respond, exec_newFrame ((attrWritten_FAULT a clock v s).trans hFault),
    exec_newFrame (s := s.storeAttr _ _ v) hFault, attrWritten_eq_withPB,
    newFrame_withPB (s := s.storeAttr _ _ v) hs (wf_attrWritten hs ha clock v)
      (attrWritten_background a clock v s) fun i => (canvasRedrawn_attrWritten ha clock v s).pixel_of_border]

/-- Settles O43: the store does not depend on the clock. -/
theorem newFrameForgetsWhenWritesArrived : Obligations.NewFrameForgetsWhenWritesArrived := by
  intro s k k' hs hFault
  refine ⟨fun a d hlo hhi => ?bitmap, fun a v hlo hhi => ?attr⟩
  case bitmap =>
    have ha := (inBitmapRegion_iff a).mpr ⟨hlo, hhi⟩
    have hFrame := exec_newFrame
      (s := s.storeBitmap (bitmapRowFromAddress a).toNat (bitmapColumnFromAddress a).toNat d) hFault
    exact ⟨_, _, _, exec_writeBitmapByte hFault ha k d, exec_writeBitmapByte hFault ha k' d,
      (exec_newFrame_bitmapWritten hs.buffer hFault ha k d).trans hFrame,
      (exec_newFrame_bitmapWritten hs.buffer hFault ha k' d).trans hFrame⟩
  case attr =>
    have ha := (inAttrRegion_iff a).mpr ⟨hlo, hhi⟩
    have hFrame := exec_newFrame (s := s.storeAttr (attrRowFromAddress a) (attrColumnFromAddress a).toNat v) hFault
    exact ⟨_, _, _, exec_writeAttrByte hFault ha k v, exec_writeAttrByte hFault ha k' v,
      (exec_newFrame_attrWritten hs.buffer hFault ha k v).trans hFrame,
      (exec_newFrame_attrWritten hs.buffer hFault ha k' v).trans hFrame⟩

end Sys2Proof.Machine
end

section
/-! PROOFS. Runs of operations (70_reset_and_hazards.md R231, R238): documented operands run safely, and the phase
toggles once in 32 frames (43_renderer_ops.md R174). -/

namespace Sys2Proof.Machine

/-! ### The frame counter -/

theorem exec_FC {i : Instr} {s t : State} (h : exec i s = .next t) :
    t.FC = s.FC + if i == .newFrame then 1 else 0 := by
  rcases exec_frame_cases h with ⟨hi, hFC, -⟩ | ⟨rfl, rfl⟩
  · rw [hFC, if_neg (by rwa [beq_iff_eq]), Nat.add_zero]
  · rw [respond_FC, fullRedraw_FC, advanceFrame_FC, if_pos BEq.rfl]

theorem perform_FC {is : List Instr} {s t : State} (h : perform is s = .next t) :
    t.FC = s.FC + is.count .newFrame := by
  induction is generalizing s with
  | nil => cases h; rfl
  | cons i is ih =>
    obtain ⟨u, hi, his⟩ := perform_cons_next h
    rw [ih his, exec_FC hi, List.count_cons]
    omega

/-! ### Safe runs -/

theorem violationOf_of_wellFormed {i : Instr} (h : i.wellFormed = true) : violationOf i = none := by
  by_contra hViolation
  rcases (violationOf_ne_none_iff i).mp hViolation with ⟨a, k, d, rfl, hRange⟩ | ⟨a, k, d, rfl, hRange⟩ |
    ⟨bits, rfl, hCode⟩
  · have hDomain : 0x4000 ≤ a.toNat ∧ a.toNat ≤ 0x57FF := of_decide_eq_true h
    omega
  · have hDomain : 0x5800 ≤ a.toNat ∧ a.toNat ≤ 0x5AFF := of_decide_eq_true h
    omega
  · have hDomain : bits.toNat ≤ 7 := of_decide_eq_true h
    omega

/-- R231: an operation with documented operands completes and latches nothing. -/
theorem exec_of_wellFormed {i : Instr} {s : State} (hFault : s.FAULT = none) (hi : i.wellFormed = true) :
    ∃ t, exec i s = .next t ∧ t.FAULT = none := by
  rcases exec_next_or_refused hFault i with ⟨t, h⟩ | ⟨a, ha, hDecode, -⟩
  · exact ⟨t, h, (FAULT_of_exec hFault h).trans (violationOf_of_wellFormed hi)⟩
  · have hDomain : 0x5800 ≤ a.toNat ∧ a.toNat ≤ 0x5AFF := by
      rcases hDecode with rfl | rfl <;> exact of_decide_eq_true hi
    rw [lt_attrBase_iff] at ha
    omega

theorem perform_of_wellFormed {is : List Instr} {s : State} (hFault : s.FAULT = none)
    (his : ∀ i ∈ is, i.wellFormed = true) : ∃ t, perform is s = .next t ∧ t.FAULT = none := by
  induction is generalizing s with
  | nil => exact ⟨s, rfl, hFault⟩
  | cons i is ih =>
    obtain ⟨hi, his⟩ := List.forall_mem_cons.mp his
    obtain ⟨u, hu, hFault⟩ := exec_of_wellFormed hFault hi
    rw [perform_cons_of_next hu]
    exact ih hFault his

/-- Settles O41: by induction on the run. -/
theorem documentedOperandsRunSafely : Obligations.DocumentedOperandsRunSafely := by
  intro is s hFault his
  obtain ⟨t, h, ht⟩ := perform_of_wellFormed hFault his
  exact ⟨t, h, ht, perform_FC h⟩

/-! ### The flash phase along a run -/

/-- D6: an operation changes the phase exactly when it takes the counter to its next multiple of 32. -/
theorem exec_flash {i : Instr} {s t : State} (h : exec i s = .next t) :
    (if t.FLASH = s.FLASH then 0 else 1) + s.FC / 32 = t.FC / 32 := by
  rcases exec_frame_cases h with ⟨-, hFC, hFlash⟩ | ⟨-, rfl⟩
  · rw [hFC, if_pos hFlash, Nat.zero_add]
  · rw [respond_FC, respond_FLASH, fullRedraw_FC, fullRedraw_FLASH, advanceFrame_FC, advanceFrame_FLASH, nextFlash_eq]
    by_cases hMultiple : (s.FC + 1) % 32 = 0
    · rw [if_pos hMultiple, if_neg (Bool.not_ne_self s.FLASH)]
      omega
    · rw [if_neg hMultiple, if_pos rfl]
      omega

/-- The multiples of 32 the counter passes in a run are its changes of the phase. -/
theorem flashChanges_eq {is : List Instr} {s t : State} (h : perform is s = .next t) :
    flashChanges is s + s.FC / 32 = t.FC / 32 := by
  induction is generalizing s with
  | nil => cases h; rw [flashChanges_nil, Nat.zero_add]
  | cons i is ih =>
    obtain ⟨u, hi, his⟩ := perform_cons_next h
    rw [flashChanges_cons_of_next hi, ← ih his, ← exec_flash hi]
    omega

/-- The phase at the end of a run by the parity of its changes. -/
theorem perform_FLASH {is : List Instr} {s t : State} (h : perform is s = .next t) :
    t.FLASH = if flashChanges is s % 2 = 1 then !s.FLASH else s.FLASH := by
  induction is generalizing s with
  | nil => cases h; rfl
  | cons i is ih =>
    obtain ⟨u, hi, his⟩ := perform_cons_next h
    rw [flashChanges_cons_of_next hi, ih his]
    by_cases hSame : u.FLASH = s.FLASH
    · rw [if_pos hSame, hSame, Nat.zero_add]
    · rw [if_neg hSame, Bool.eq_not.mpr hSame, Bool.not_not]
      by_cases hOdd : flashChanges is u % 2 = 1
      · rw [if_pos hOdd, if_neg (by omega)]
      · rw [if_neg hOdd, if_pos (by omega)]

/-- Settles O42: 32 frames take the counter past one multiple of 32, from wherever it began. -/
theorem flashTogglesOncePer32Frames : Obligations.FlashTogglesOncePer32Frames := by
  intro is s t n h hCount
  have hChanges := flashChanges_eq h
  rw [perform_FC h, hCount] at hChanges
  have hn : flashChanges is s = n := by omega
  exact ⟨hn, hn ▸ perform_FLASH h⟩

end Sys2Proof.Machine
end
